-- ==== Sys2Proof/Word.lean ====
section
/-! DEFINITION. The one word type of the CORE: every register, memory cell, operand and output value is an
unsigned byte (spec 00_scope.md R7; `REG_WIDTH` of R6). Addresses and the program counter are exact
integers (R8), so they are `Nat` and have no type of their own. -/

namespace Sys2Proof

/-- An unsigned 8-bit value, 0..255 (R7). -/
abbrev Byte := BitVec 8

end Sys2Proof
end

