-- ==== Sys2Proof/Config.lean ====
section
/-! DEFINITION. The implementation parameters of spec 00_scope.md R6. The spec leaves no value open, so there is
no free value here. `SP_ALIAS_ORDER` and `HALT_PC` are the spec's two named parameters; each has its default
below, and the meanings that depend on one are written for both of its values. -/

namespace Sys2Proof

/-- When a stack instruction's operand register is x[7] itself: are operands read before `sp` moves, or step
by step (43_stack.md R141; log 8). -/
inductive SpAliasOrder where
  | operandsFirst
  | sequential
  deriving DecidableEq, Repr

/-- What HALT leaves in `pc`: its own address `a`, or `a + 1` (40_execution_cycle.md R88; log 7). -/
inductive HaltPc where
  | atHalt
  | afterHalt
  deriving DecidableEq, Repr

namespace Config

/-- `MEM_SIZE`: cells at addresses 0..255. -/
@[simp] abbrev memSize : Nat := 256

/-- `NUM_REGS`: registers x[0]..x[7]. -/
@[simp] abbrev numRegs : Nat := 8

/-- `SP_INDEX`: the register that is the stack pointer. -/
@[simp] abbrev spIndex : Fin 8 := 7

/-- `SP_RESET`: 0xF4 (log 16). -/
@[simp] abbrev spReset : Byte := 0xF4

/-- `PC_RESET`. -/
@[simp] abbrev pcReset : Nat := 0

/-- `LOAD_BASE`: where `load` puts the first byte of an image. -/
@[simp] abbrev loadBase : Nat := 0

/-- `SP_ALIAS_ORDER`, at the spec's default (R6, R141; log 8). -/
@[simp] abbrev spAliasOrder : SpAliasOrder := .operandsFirst

/-- `HALT_PC`, at the spec's default `a + 1` (R6, R88; log 7). -/
@[simp] abbrev haltPc : HaltPc := .afterHalt

end Config

end Sys2Proof
end

