-- ==== Sys2Proof/Syntax.lean ====
section
/-! DEFINITION. The nine instructions of spec 30_encoding.md R64, and the nine opcodes the decoder tells them by.
A register operand is kept as its whole byte, because every byte value decodes and the index is checked only
when the instruction executes (R63, R67). -/

namespace Sys2Proof

/-- The opcodes of R64, each the name of one opcode byte. -/
inductive Opcode where
  | halt
  | loadImmediate
  | printReg
  | multiply
  | add
  | push
  | pop
  | call
  | ret
  deriving DecidableEq, Repr

/-- An instruction with its operands in encoding order (R62, R64). -/
inductive Instr where
  /-- HALT. -/
  | halt
  /-- LOAD_IMMEDIATE reg,imm8. -/
  | loadImmediate (reg imm8 : Byte)
  /-- PRINT_REG reg. -/
  | printReg (reg : Byte)
  /-- MULTIPLY regA,regB. -/
  | multiply (regA regB : Byte)
  /-- ADD regA,regB. -/
  | add (regA regB : Byte)
  /-- PUSH reg. -/
  | push (reg : Byte)
  /-- POP reg. -/
  | pop (reg : Byte)
  /-- CALL reg. -/
  | call (reg : Byte)
  /-- RETURN. -/
  | ret
  deriving DecidableEq, Repr

end Sys2Proof
end

