-- ==== Sys2Proof/Decode.lean ====
section
/-! DEFINITION. The opcode map, the decoder and the encoder (spec 30_encoding.md R60 to R68,
40_execution_cycle.md R83). The decoder here reads a list of bytes; the fetch unit (Machine/Fetch.lean) reads
the same bytes from memory, with the same opcode map and the same assembly of operands. -/

namespace Sys2Proof

/-- The opcode byte of each opcode (R64). -/
def Opcode.byte : Opcode → Byte
  | .halt => 0x01
  | .loadImmediate => 0x82
  | .printReg => 0x47
  | .multiply => 0xA2
  | .add => 0xA0
  | .push => 0x45
  | .pop => 0x46
  | .call => 0x50
  | .ret => 0x11

/-- The operand count `N` of each opcode, as R64's table lists it (R61 and R68: it agrees with bits 7..6 of the
opcode byte). -/
def Opcode.operandCount : Opcode → Nat
  | .halt => 0
  | .loadImmediate => 2
  | .printReg => 1
  | .multiply => 2
  | .add => 2
  | .push => 1
  | .pop => 1
  | .call => 1
  | .ret => 0

/-- The width in bytes, `1 + N` (R61). -/
def Opcode.width (o : Opcode) : Nat := 1 + o.operandCount

/-- The known opcode set (R83). -/
def Opcode.all : List Opcode :=
  [.halt, .loadImmediate, .printReg, .multiply, .add, .push, .pop, .call, .ret]

/-- A byte selects an opcode exactly when the whole byte equals that opcode's value (R65: mask 0xFF on every
row); every other byte is illegal (R66). -/
def decodeOpcode (b : Byte) : Option Opcode :=
  Opcode.all.find? fun o => o.byte == b

/-- The instruction of an opcode and its operand bytes; an operand byte the opcode does not have is not looked
at (R62, R63). -/
def assemble (o : Opcode) (op1 op2 : Byte) : Instr :=
  match o with
  | .halt => .halt
  | .loadImmediate => .loadImmediate op1 op2
  | .printReg => .printReg op1
  | .multiply => .multiply op1 op2
  | .add => .add op1 op2
  | .push => .push op1
  | .pop => .pop op1
  | .call => .call op1
  | .ret => .ret

/-- Why a list of bytes holds no instruction at its head. -/
inductive DecodeError where
  /-- There is no opcode byte. -/
  | noOpcode
  /-- The opcode byte is not one of the nine (R66). -/
  | illegalOpcode (opcode : Byte)
  /-- The opcode is known and an operand byte is missing. -/
  | missingOperand
  deriving DecidableEq, Repr

/-- Decode the instruction at the head of a list of bytes, and give the bytes after it. The length is known from
the opcode byte alone, before any operand is looked at (R68). -/
def decode : List Byte → Except DecodeError (Instr × List Byte)
  | [] => .error .noOpcode
  | ob :: rest =>
    match decodeOpcode ob with
    | none => .error (.illegalOpcode ob)
    | some o =>
      if rest.length < o.operandCount then .error .missingOperand
      else .ok (assemble o (rest.getD 0 0) (rest.getD 1 0), rest.drop o.operandCount)

/-- The opcode of an instruction. -/
def Instr.opcode : Instr → Opcode
  | .halt => .halt
  | .loadImmediate _ _ => .loadImmediate
  | .printReg _ => .printReg
  | .multiply _ _ => .multiply
  | .add _ _ => .add
  | .push _ => .push
  | .pop _ => .pop
  | .call _ => .call
  | .ret => .ret

/-- The operand bytes of an instruction, in the order of R62. -/
def Instr.operands : Instr → List Byte
  | .halt => []
  | .loadImmediate reg imm8 => [reg, imm8]
  | .printReg reg => [reg]
  | .multiply regA regB => [regA, regB]
  | .add regA regB => [regA, regB]
  | .push reg => [reg]
  | .pop reg => [reg]
  | .call reg => [reg]
  | .ret => []

/-- The width of an instruction in bytes (R64). -/
def Instr.width (i : Instr) : Nat := i.opcode.width

/-- The bytes of an instruction, at increasing addresses from `a` (R62). -/
def encode (i : Instr) : List Byte := i.opcode.byte :: i.operands

/-- The longest instruction's three bytes out of a number whose bit 0 is the least significant bit of the first
byte; the bits at `nbits` and above are taken as 0. -/
def tableWordBytes (nbits w : Nat) : List Byte :=
  let v := w % 2 ^ nbits
  [BitVec.ofNat 8 v, BitVec.ofNat 8 (v / 256), BitVec.ofNat 8 (v / 65536)]

/-- The instruction the decoder reads from a word numbered as spec/opcode_table.json numbers it. -/
def decodeTableWord (nbits w : Nat) : Option Instr :=
  match decode (tableWordBytes nbits w) with
  | .ok (i, _) => some i
  | .error _ => none

end Sys2Proof
end

