-- ==== Sys2Proof/Machine/State.lean ====
section
/-! DEFINITION. The architectural state of the CORE, the tuple (mem, x, pc, state, out) of spec 10_state.md R20 and
nothing else, with the error record of 60_exceptions.md R180 and R181, the reasons a step can stop, and the
state after reset (70_reset_and_hazards.md R211). -/

namespace Sys2Proof.Machine

/-- The subkind of an OutOfBounds error: what was out of range (60_exceptions.md R180), with the two further
clients of the memory access controller (20_memory.md R55), whose requests no instruction ever makes out of
range (R57). -/
inductive BoundsKind where
  /-- The opcode byte's address, `pc`. -/
  | fetch
  /-- An operand byte's address, `a + 1` or `a + 2`. -/
  | operand
  /-- A register index of 8 or more. -/
  | register
  /-- CALL's return address 256, which no cell can hold. -/
  | returnAddress
  /-- A stack address; never raised (R57). -/
  | stack
  /-- An address of the host's `load`; it refuses the launch (R56) and never reaches the run state. -/
  | load
  deriving DecidableEq, Repr

/-- The error kinds with what each one reports (R180, and the `info` field of R181). -/
inductive Error where
  /-- `info`: the offending address, register index or return address. -/
  | outOfBounds (kind : BoundsKind) (info : Nat)
  /-- The opcode byte that is not one of the nine. -/
  | illegalInstruction (opcode : Byte)
  /-- The select byte the ALU has no operation for; unreachable from programs (R126). -/
  | unsupportedOperation (select : Byte)
  /-- The stack pointer, 0, of a PUSH or CALL. -/
  | stackOverflow (sp : Byte)
  /-- The stack pointer, 255, of a POP or RETURN. -/
  | stackUnderflow (sp : Byte)
  deriving DecidableEq, Repr

/-- The error record `e` of FAULTED(e) (R181). Its code and subkind are functions of `error`
(Machine/Ops.lean). -/
structure ErrorRecord where
  error : Error
  /-- The address of the instruction that faulted. -/
  pc : Nat
  deriving DecidableEq, Repr

/-- The run state (10_state.md R29). HALTED and FAULTED are terminal. -/
inductive RunState where
  | running
  | halted
  | faulted (e : ErrorRecord)
  deriving DecidableEq, Repr

/-- Memory as the list of the cells that do not hold what an unlisted address reads as, in rising order of
address (`Memory.wf` in Machine/Ops.lean; log 11). -/
abbrev Memory := List Host.Cell

/-- The architectural state (R20). -/
structure State where
  /-- 256 byte cells (R32). -/
  mem : Memory
  /-- The register file x[0]..x[7]; x[7] is the stack pointer (R21, R22). -/
  x : Vector Byte 8
  /-- The program counter, an exact integer that does not wrap (R25, R26). -/
  pc : Nat
  /-- The run state (R29). -/
  state : RunState
  /-- The bytes PRINT_REG has emitted, oldest first (R33). -/
  out : List Byte
  deriving DecidableEq, Repr

/-- Why the machine has no next state. Raised by `step` alone, never by an instruction: in a terminal run state
"it has no step" (40_execution_cycle.md R80; log 1). -/
inductive Fault where
  /-- The run state is HALTED. Raised by `step`. Safe: the spec gives no step here. -/
  | noStepHalted
  /-- The run state is FAULTED(e). Raised by `step`. Safe: the spec gives no step here. -/
  | noStepFaulted (e : ErrorRecord)
  deriving DecidableEq, Repr

/-- Why an instruction has no meaning. -/
inductive Refusal where
  /-- The instruction is not modelled yet. Raised by no arm of `exec`: all nine have their meaning. Safe. -/
  | notModelled (mnemonic : String)
  deriving DecidableEq, Repr

/-- The machine after construction (70_reset_and_hazards.md R211): memory zero, x[0]..x[6] zero, x[7] at
`SP_RESET`, `pc` at `PC_RESET`, RUNNING, no output. -/
def State.reset : State where
  mem := []
  x := #v[0, 0, 0, 0, 0, 0, 0, Config.spReset]
  pc := Config.pcReset
  state := .running
  out := []

end Sys2Proof.Machine
end

