-- ==== Sys2Proof/Machine/Ops.lean ====
section
/-! DEFINITION. The operations the instructions share: memory and the memory access controller
(spec 20_memory.md), the register file (10_state.md), raising an error (60_exceptions.md) and the stack-pointer
management unit (43_stack.md). There is no return from an error (60_exceptions.md R187), so none stands
here. -/

namespace Sys2Proof.Machine

/-! ## Memory as data -/

/-- What an address reads as that no write and no `load` has given another value: 0 (10_state.md R32). -/
def Memory.unlisted : Byte := 0

/-- The byte at an address. -/
def Memory.read : Memory → Nat → Byte
  | [], _ => Memory.unlisted
  | (k, v) :: rest, a => if k = a then v else Memory.read rest a

/-- The memory with no entry for the address. -/
def Memory.erase (m : Memory) (a : Nat) : Memory := m.filter fun c => c.1 != a

/-- The memory with one entry put before the first entry of a higher address. -/
def Memory.place (a : Nat) (v : Byte) : Memory → Memory
  | [] => [(a, v)]
  | c :: rest => if a < c.1 then (a, v) :: c :: rest else c :: Memory.place a v rest

/-- The memory with the byte at one address replaced, in canonical form. -/
def Memory.write (m : Memory) (a : Nat) (v : Byte) : Memory :=
  if v = Memory.unlisted then m.erase a else Memory.place a v (m.erase a)

/-- The canonical form: addresses rise strictly, every address exists, and no entry holds what an unlisted
address reads as (log 11). -/
abbrev Memory.wf (m : Memory) : Prop :=
  m.Pairwise (fun c d => c.1 < d.1) ∧ ∀ c ∈ m, c.1 < Config.memSize ∧ c.2 ≠ Memory.unlisted

/-! ## The memory access controller (20_memory.md R41, R42, R55) -/

/-- `MemRead(addr, 1)` for a client: the byte, or OutOfBounds when `addr > 255` (R41). -/
def memRead (kind : BoundsKind) (addr : Nat) (m : Memory) : Except Error Byte :=
  if addr < Config.memSize then .ok (m.read addr) else .error (.outOfBounds kind addr)

/-- `MemWrite(addr, 1, v)` for a client: the memory after it, or OutOfBounds when `addr > 255` (R42). -/
def memWrite (kind : BoundsKind) (addr : Nat) (v : Byte) (m : Memory) : Except Error Memory :=
  if addr < Config.memSize then .ok (m.write addr v) else .error (.outOfBounds kind addr)

/-- A request to the controller (R55). -/
inductive MacRequest where
  | read (kind : BoundsKind) (addr : Nat)
  | write (kind : BoundsKind) (addr : Nat) (v : Byte)
  deriving DecidableEq, Repr

/-- The controller's answer (R55). -/
inductive MacResponse where
  | data (v : Byte)
  | ack
  | outOfBounds (e : Error)
  deriving DecidableEq, Repr

/-- The controller as a block: it serves one request and gives its answer and the memory after it (R55). -/
def macServe (r : MacRequest) (m : Memory) : MacResponse × Memory :=
  match r with
  | .read kind addr =>
    match memRead kind addr m with
    | .ok v => (.data v, m)
    | .error e => (.outOfBounds e, m)
  | .write kind addr v =>
    match memWrite kind addr v m with
    | .ok m' => (.ack, m')
    | .error e => (.outOfBounds e, m)

/-! ## Registers and the other fields -/

/-- `x[i]` (10_state.md R21). -/
def State.reg (s : State) (i : Fin 8) : Byte := s.x[i.val]

/-- `x[i] <- v`; no register is hardwired (R22). -/
def State.setReg (s : State) (i : Fin 8) (v : Byte) : State := { s with x := s.x.set i.val v }

/-- `sp`, another name for x[7] (R22). -/
def State.sp (s : State) : Byte := s.reg Config.spIndex

/-- `sp <- v` (R22). -/
def State.setSp (s : State) (v : Byte) : State := s.setReg Config.spIndex v

/-- `pc <- target`, with no wrapping (R25, R26). -/
def State.setPc (s : State) (target : Nat) : State := { s with pc := target }

/-- Memory replaced by the one a write gave. -/
def State.setMem (s : State) (m : Memory) : State := { s with mem := m }

/-- `state <- r` (R29). -/
def State.setRunState (s : State) (r : RunState) : State := { s with state := r }

/-- `emit(v)`: append to the output channel (R33; 41_data_movement.md R102). -/
def State.emit (s : State) (v : Byte) : State := { s with out := s.out ++ [v] }

/-! ## Errors (60_exceptions.md) -/

/-- The numeric code of an error kind (R180; log 4). -/
def Error.code : Error → Nat
  | .outOfBounds _ _ => 1
  | .illegalInstruction _ => 2
  | .unsupportedOperation _ => 3
  | .stackOverflow _ => 4
  | .stackUnderflow _ => 5

/-- The subkind, for OutOfBounds only (R181). -/
def Error.subkind : Error → Option BoundsKind
  | .outOfBounds kind _ => some kind
  | .illegalInstruction _ => none
  | .unsupportedOperation _ => none
  | .stackOverflow _ => none
  | .stackUnderflow _ => none

/-- The `info` field as a number (R181). -/
def Error.info : Error → Nat
  | .outOfBounds _ info => info
  | .illegalInstruction opcode => opcode.toNat
  | .unsupportedOperation select => select.toNat
  | .stackOverflow sp => sp.toNat
  | .stackUnderflow sp => sp.toNat

/-- `raise`: taking an error. The run state becomes FAULTED(e), with the address of the faulting instruction in
the record; everything else keeps the value it had before the instruction (R182, R183; log 2). -/
def raise (e : Error) (s : State) : Host.Outcome State Fault Refusal :=
  .next { s with state := .faulted { error := e, pc := s.pc } }

/-- The end of an instruction that began in `s`: it completes with all its writes, or it raises its error and
writes nothing else (40_execution_cycle.md R81; R183). -/
def settle (s : State) : Except Error State → Host.Outcome State Fault Refusal
  | .ok t => .next t
  | .error e => raise e s

/-! ## The stack-pointer management unit (43_stack.md R140 to R143) -/

/-- The address a push writes: `s - 1`, the new top (R140). Read only where `sp` is not 0. -/
def pushAddr (s : State) : Nat := s.sp.toNat - 1

/-- `push(v)` (R140): StackOverflow when `sp = 0` (R142), else the decrement and then the write. -/
def pushByte (v : Byte) (s : State) : Except Error State :=
  if s.sp = 0 then .error (.stackOverflow s.sp)
  else do
    let m ← memWrite .stack (pushAddr s) v s.mem
    return (s.setSp (s.sp - 1)).setMem m

/-- `pop()` (R140): StackUnderflow when `sp = 255` (R143), else the read and then the increment. -/
def popByte (s : State) : Except Error (Byte × State) :=
  if s.sp = 255 then .error (.stackUnderflow s.sp)
  else do
    let v ← memRead .stack s.sp.toNat s.mem
    return (v, s.setSp (s.sp + 1))

end Sys2Proof.Machine
end

