-- ==== Sys2Proof/Machine/Flags.lean ====
section
/-! DEFINITION. The CORE has no flags register and no condition codes: no instruction sets or reads a flag
(spec 10_state.md R28). What is left to say is what becomes of a result that does not fit: ADD's carry and bits
15..8 of MULTIPLY's product are discarded and not recorded (42_alu.md R122, R127). -/

namespace Sys2Proof.Machine

/-- An exact result reduced mod 256; the bits above are discarded (R8, R122). -/
def lowByte (n : Nat) : Byte := BitVec.ofNat 8 (n % 256)

end Sys2Proof.Machine
end

