-- ==== Sys2Proof/Machine/Operands.lean ====
section
/-! DEFINITION. The operand forms (spec 30_encoding.md R62, R63): a register operand is a whole byte whose index is
checked before the instruction writes anything; an immediate is the whole byte, used unchanged, and needs no
operation. There is no memory operand, offset or displacement (R63). -/

namespace Sys2Proof.Machine

/-- `checkReg(i)`: the register an operand byte names, or OutOfBounds(REGISTER, i) for 8..255 (10_state.md R23,
00_scope.md R9). The byte is not masked to three bits. -/
def checkReg (b : Byte) : Except Error (Fin 8) :=
  if h : b.toNat < 8 then .ok ⟨b.toNat, h⟩ else .error (.outOfBounds .register b.toNat)

/-- The value a PUSH or CALL reads from its operand register: before `sp` moves (OPERANDS_FIRST), or after the
decrement (SEQUENTIAL). The two differ for x[7] alone (43_stack.md R141; log 8). -/
def pushOperand (order : SpAliasOrder) (i : Fin 8) (s : State) : Byte :=
  match order with
  | .operandsFirst => s.reg i
  | .sequential => (s.setSp (s.sp - 1)).reg i

end Sys2Proof.Machine
end

