-- ==== Sys2Proof/Machine/Alu.lean ====
section
/-! DEFINITION. The ALU and its two instructions (spec 42_alu.md). -/

namespace Sys2Proof.Machine

/-- The ALU: a combinational function of a select byte and two operand values; a select other than the two
arithmetic opcodes fails (R120, R121). -/
def alu (select va vb : Byte) : Except Error Byte :=
  if select = 0xA0 then .ok (lowByte (va.toNat + vb.toNat))
  else if select = 0xA2 then .ok (lowByte (va.toNat * vb.toNat))
  else .error (.unsupportedOperation select)

/-- The shape of R123 and R124: both registers are checked, both are read, and the ALU's result goes to the
first (R125). -/
def aluInstr (select regA regB : Byte) (s : State) : Except Error State := do
  let a ← checkReg regA
  let b ← checkReg regB
  let res ← alu select (s.reg a) (s.reg b)
  return (s.setReg a res).setPc (s.pc + 3)

/-- MULTIPLY (R123). -/
def execMultiply (regA regB : Byte) (s : State) : Host.Outcome State Fault Refusal :=
  settle s (aluInstr 0xA2 regA regB s)

/-- ADD (R124). -/
def execAdd (regA regB : Byte) (s : State) : Host.Outcome State Fault Refusal :=
  settle s (aluInstr 0xA0 regA regB s)

end Sys2Proof.Machine
end

