-- ==== Sys2Proof/Machine/Control.lean ====
section
/-! DEFINITION. HALT (spec 40_execution_cycle.md R88), CALL and RETURN (44_call_return.md). -/

namespace Sys2Proof.Machine

/-- HALT under a given `HALT_PC` (R88; log 7). -/
def execHaltWith (haltPc : HaltPc) (s : State) : Host.Outcome State Fault Refusal :=
  match haltPc with
  | .atHalt => .next (s.setRunState .halted)
  | .afterHalt => .next ((s.setPc (s.pc + 1)).setRunState .halted)

/-- HALT (R88). -/
def execHalt (s : State) : Host.Outcome State Fault Refusal :=
  execHaltWith Config.haltPc s

/-- The byte CALL pushes, `a + 2`; an address no cell can hold is an error, not wrapped (R160, R162). -/
def returnAddress (s : State) : Except Error Byte :=
  if s.pc + 2 > 255 then .error (.outOfBounds .returnAddress (s.pc + 2))
  else .ok (BitVec.ofNat 8 (s.pc + 2))

/-- CALL under a given order (R160, R141). -/
def execCallWith (order : SpAliasOrder) (reg : Byte) (s : State) : Host.Outcome State Fault Refusal :=
  settle s do
    let i ← checkReg reg
    let ret ← returnAddress s
    let t ← pushByte ret s
    return t.setPc (pushOperand order i s).toNat

/-- CALL (R160). -/
def execCall (reg : Byte) (s : State) : Host.Outcome State Fault Refusal :=
  execCallWith Config.spAliasOrder reg s

/-- RETURN (R161). -/
def execReturn (s : State) : Host.Outcome State Fault Refusal :=
  settle s do
    let (target, t) ← popByte s
    return t.setPc target.toNat

end Sys2Proof.Machine
end

