-- ==== Sys2Proof/Machine/DataMovement.lean ====
section
/-! DEFINITION. LOAD_IMMEDIATE and PRINT_REG (spec 41_data_movement.md). -/

namespace Sys2Proof.Machine

/-- LOAD_IMMEDIATE (R100). Writing x[7] moves the stack pointer with no stack check (43_stack.md R148). -/
def execLoadImmediate (reg imm8 : Byte) (s : State) : Host.Outcome State Fault Refusal :=
  settle s do
    let i ← checkReg reg
    return (s.setReg i imm8).setPc (s.pc + 3)

/-- PRINT_REG (R101). -/
def execPrintReg (reg : Byte) (s : State) : Host.Outcome State Fault Refusal :=
  settle s do
    let i ← checkReg reg
    return (s.emit (s.reg i)).setPc (s.pc + 2)

end Sys2Proof.Machine
end

