-- ==== Sys2Proof/Machine/Stack.lean ====
section
/-! DEFINITION. PUSH and POP (spec 43_stack.md), each for both values of `SP_ALIAS_ORDER`; the instruction is the one
at the configured value. -/

namespace Sys2Proof.Machine

/-- PUSH under a given order (R144, R141). -/
def execPushWith (order : SpAliasOrder) (reg : Byte) (s : State) : Host.Outcome State Fault Refusal :=
  settle s do
    let i ← checkReg reg
    let t ← pushByte (pushOperand order i s) s
    return t.setPc (s.pc + 2)

/-- PUSH (R144). -/
def execPush (reg : Byte) (s : State) : Host.Outcome State Fault Refusal :=
  execPushWith Config.spAliasOrder reg s

/-- The writes of POP when the destination is written last, over the increment of `sp` (R145, R141). -/
def popOperandsFirst (i : Fin 8) (s : State) : Except Error State := do
  let (v, t) ← popByte s
  return t.setReg i v

/-- The writes of POP step by step: the destination is written, then `sp` as it then stands is checked and
incremented (R141; log 8). -/
def popSequential (i : Fin 8) (s : State) : Except Error State := do
  let v ← memRead .stack s.sp.toNat s.mem
  let t := s.setReg i v
  if t.sp = 255 then throw (.stackUnderflow t.sp)
  return t.setSp (t.sp + 1)

/-- POP under a given order (R145, R141). -/
def execPopWith (order : SpAliasOrder) (reg : Byte) (s : State) : Host.Outcome State Fault Refusal :=
  settle s do
    let i ← checkReg reg
    let t ← match order with
      | .operandsFirst => popOperandsFirst i s
      | .sequential => popSequential i s
    return t.setPc (s.pc + 2)

/-- POP (R145). -/
def execPop (reg : Byte) (s : State) : Host.Outcome State Fault Refusal :=
  execPopWith Config.spAliasOrder reg s

end Sys2Proof.Machine
end

