-- ==== Sys2Proof/Machine/Dispatch.lean ====
section
/-! DEFINITION. Dispatch: the decoded instruction goes to exactly one execute rule (spec 40_execution_cycle.md
R85, R91). -/

namespace Sys2Proof.Machine

/-- The meaning of an instruction that stands at the program counter. -/
def exec (i : Instr) (s : State) : Host.Outcome State Fault Refusal :=
  match i with
  | .halt => Sys2Proof.Machine.execHalt s
  | .loadImmediate reg imm8 => Sys2Proof.Machine.execLoadImmediate reg imm8 s
  | .printReg reg => Sys2Proof.Machine.execPrintReg reg s
  | .multiply regA regB => Sys2Proof.Machine.execMultiply regA regB s
  | .add regA regB => Sys2Proof.Machine.execAdd regA regB s
  | .push reg => Sys2Proof.Machine.execPush reg s
  | .pop reg => Sys2Proof.Machine.execPop reg s
  | .call reg => Sys2Proof.Machine.execCall reg s
  | .ret => Sys2Proof.Machine.execReturn s

end Sys2Proof.Machine
end

