-- ==== Sys2Proof/Machine/Fetch.lean ====
section
/-! DEFINITION. The fetch unit and its use of the decoder (spec 40_execution_cycle.md R82, R83, R84), and the placing of
an instruction's bytes where the fetch unit reads. The latches IR, op1 and op2 live within a step only
(10_state.md R34; log 6). -/

namespace Sys2Proof.Machine

/-- Opcode fetch: OutOfBounds(FETCH, a) when `a > 255` (R82). -/
def fetchOpcode (s : State) : Except Error Byte := memRead .fetch s.pc s.mem

/-- The operand byte `k` (1 or 2) of an instruction with `n` of them: read at `a + k`, or not read at all when
the instruction has no such byte, and then its latch is looked at by nobody (R84). -/
def fetchOperand (n k : Nat) (s : State) : Except Error Byte :=
  if k ≤ n then memRead .operand (s.pc + k) s.mem else .ok 0

/-- Fetch and decode: the opcode byte, then the opcode, then the instruction's own operand bytes in order (R82,
R83, R84). -/
def fetchInstr (s : State) : Except Error Instr := do
  let ir ← fetchOpcode s
  match decodeOpcode ir with
  | none => throw (.illegalInstruction ir)
  | some o =>
    let op1 ← fetchOperand o.operandCount 1 s
    let op2 ← fetchOperand o.operandCount 2 s
    return assemble o op1 op2

/-- Write bytes at consecutive addresses from `a`, those that have a cell. -/
def placeBytes (a : Nat) : List Byte → Memory → Memory
  | [], m => m
  | b :: rest, m => placeBytes (a + 1) rest (if a < Config.memSize then m.write a b else m)

end Sys2Proof.Machine
end

