-- ==== Sys2Proof/Machine/Step.lean ====
section
/-! DEFINITION. One step of the CORE (spec 40_execution_cycle.md R80, R81, R91). -/

namespace Sys2Proof.Machine

/-- One step: in RUNNING, fetch, decode and execute one instruction, or raise the fetch's error; in HALTED and
FAULTED there is no step (R80, R91; log 1). -/
def step (s : State) : Host.Outcome State Fault Refusal :=
  match s.state with
  | .running =>
    match fetchInstr s with
    | .ok i => exec i s
    | .error e => raise e s
  | .halted => .fault .noStepHalted
  | .faulted e => .fault (.noStepFaulted e)

/-- The state with an instruction, numbered as spec/opcode_table.json numbers its bits, stored at the program
counter, and running, so that the next step fetches it (log 12). -/
def State.withFetchWord (s : State) (nbits w : Nat) : State :=
  { s with mem := placeBytes s.pc (tableWordBytes nbits w) s.mem, state := .running }

end Sys2Proof.Machine
end

