-- ==== Sys2Proof/Machine/HostInterface.lean ====
section
/-! DEFINITION. What the host does to the CORE and sees of it: `load`, boot and `run` (spec 20_memory.md R56,
40_execution_cycle.md R87, 60_exceptions.md R194, 70_reset_and_hazards.md R213, R218), the rendering of the
output (41_data_movement.md R102), the diagnostic trace (40_execution_cycle.md R90) and the assembly spelling
(30_encoding.md R71). None of it is a step of the machine. -/

namespace Sys2Proof.Machine

/-! ## load and boot -/

/-- Write image bytes in order from an address, each a LOAD request to the memory access controller (R55,
R56). -/
def loadBytes : Nat → List Byte → Memory → Except Error Memory
  | _, [], m => .ok m
  | addr, b :: rest, m => do
    let m' ← memWrite .load addr b m
    loadBytes (addr + 1) rest m'

/-- `load(bytes)` (R56): memory alone changes; an image that would need a write beyond 255 is refused, and then
there is no launch (log 12). -/
def State.load (s : State) (img : List Byte) : Option State :=
  match loadBytes Config.loadBase img s.mem with
  | .ok m => some (s.setMem m)
  | .error _ => none

/-- Boot (R213): construct, then load once; `run` begins in the state it gives. -/
def boot (img : List Byte) : Option State := State.reset.load img

/-! ## run -/

/-- How `run()` returns (R194). -/
inductive RunResult where
  /-- It returns normally: HALTED. -/
  | normal
  /-- It returns the error record: FAULTED(e). -/
  | error (e : ErrorRecord)
  deriving DecidableEq, Repr

/-- What `run()` returns in a terminal run state; none in RUNNING. -/
def RunState.result : RunState → Option RunResult
  | .running => none
  | .halted => some .normal
  | .faulted e => some (.error e)

/-- An executor of `run()` with fuel (R87, R89): how it returned and the final state (R218), or none when the
fuel ran out, which says nothing of the run. On a machine already terminal it performs no step (R194). -/
def runFor (fuel : Nat) (s : State) : Option (RunResult × State) :=
  match s.state.result with
  | some r => some (r, s)
  | none =>
    match fuel with
    | 0 => none
    | k + 1 =>
      match step s with
      | .next t => runFor k t
      | .fault _ => none
      | .refused _ => none

/-! ## The output as text (R102) -/

/-- A decimal digit. -/
def digitChar (n : Nat) : Char := Char.ofNat (48 + n % 10)

/-- Unsigned decimal digits of a byte, without leading zeros. -/
def decimalDigits (v : Byte) : List Char :=
  let n := v.toNat
  if n < 10 then [digitChar n]
  else if n < 100 then [digitChar (n / 10), digitChar n]
  else [digitChar (n / 100), digitChar (n / 10), digitChar n]

/-- One output value as a line: its digits and a line feed (log 13). -/
def renderLine (v : Byte) : List Char := decimalDigits v ++ [Char.ofNat 10]

/-- What the host shows of an output list. -/
def renderOutput (out : List Byte) : List Char := out.flatMap renderLine

/-! ## The diagnostic trace (R90) -/

/-- One trace line: `pc`, the next three memory bytes (absent beyond 255) and the registers. -/
structure TraceLine where
  pc : Nat
  bytes : List (Option Byte)
  regs : Vector Byte 8
  deriving DecidableEq, Repr

/-- The trace line of a state. It reads and changes nothing (log 13). -/
def traceLine (s : State) : TraceLine where
  pc := s.pc
  bytes := [s.pc, s.pc + 1, s.pc + 2].map fun a => (memRead .operand a s.mem).toOption
  regs := s.x

/-! ## The assembly spelling (R71) -/

/-- `r0` to `r7`, and `r8` to `r255` for the indices that name no register. -/
def regName (b : Byte) : List Char := 'r' :: decimalDigits b

/-- The mnemonic of an opcode (R64). -/
def Opcode.mnemonic : Opcode → List Char
  | .halt => "HALT".toList
  | .loadImmediate => "LOAD_IMMEDIATE".toList
  | .printReg => "PRINT_REG".toList
  | .multiply => "MULTIPLY".toList
  | .add => "ADD".toList
  | .push => "PUSH".toList
  | .pop => "POP".toList
  | .call => "CALL".toList
  | .ret => "RETURN".toList

/-- The operands of an instruction as text, in encoding order; immediates in decimal. -/
def operandText : Instr → List (List Char)
  | .halt => []
  | .loadImmediate reg imm8 => [regName reg, decimalDigits imm8]
  | .printReg reg => [regName reg]
  | .multiply regA regB => [regName regA, regName regB]
  | .add regA regB => [regName regA, regName regB]
  | .push reg => [regName reg]
  | .pop reg => [regName reg]
  | .call reg => [regName reg]
  | .ret => []

/-- The mnemonic, then the operands separated by commas. -/
def assembly (i : Instr) : List Char :=
  match operandText i with
  | [] => Opcode.mnemonic i.opcode
  | ops => Opcode.mnemonic i.opcode ++ ' ' :: List.intercalate [','] ops

end Sys2Proof.Machine
end

