-- ==== Sys2Proof/WellFormed.lean ====
section
/-! DEFINITION. When an instruction is well formed: each of its register operands names a register, r0 to r7
(spec 30_encoding.md R71, 70_reset_and_hazards.md R214). An instruction that is not well formed still encodes,
decodes and executes; it then raises OutOfBounds(REGISTER) (10_state.md R23; log 17). -/

namespace Sys2Proof

/-- The byte is an index 0..7 (R23). -/
def isRegIndex (b : Byte) : Bool := decide (b.toNat < Config.numRegs)

/-- Every register operand of the instruction is an index 0..7. -/
def Instr.wellFormed : Instr → Bool
  | .halt => true
  | .loadImmediate reg _ => isRegIndex reg
  | .printReg reg => isRegIndex reg
  | .multiply regA regB => isRegIndex regA && isRegIndex regB
  | .add regA regB => isRegIndex regA && isRegIndex regB
  | .push reg => isRegIndex reg
  | .pop reg => isRegIndex reg
  | .call reg => isRegIndex reg
  | .ret => true

end Sys2Proof
end

