-- ==== Sys2Proof/Safety.lean ====
section
/-! DEFINITION. The terms claims about the CORE are stated in: the bytes an instruction is read from, the states a
run reaches, how a run ends, the invariant of every step, and the error conditions of an instruction in the
order of spec 60_exceptions.md R184. -/

namespace Sys2Proof

open Sys2Proof.Machine

/-- The bytes from the program counter to the top of memory; none when `pc > 255`. -/
def codeBytes (s : State) : List Byte :=
  (List.range' s.pc (256 - s.pc)).map s.mem.read

/-- The byte at the program counter, whatever the run state. -/
def opcodeByte (s : State) : Byte := s.mem.read s.pc

/-- The run state is FAULTED(e) for some e. -/
def isFaulted (s : State) : Bool :=
  match s.state with
  | .running => false
  | .halted => false
  | .faulted _ => true

/-- `t` is reached from `s` in some number of steps. -/
inductive Reaches (s : State) : State → Prop where
  | refl : Reaches s s
  | tail {t u : State} (h : Reaches s t) (hstep : step t = .next u) : Reaches s u

/-- `run()` from `s` returns, in this way, with this final state (R194, R218). -/
def RunReturns (s : State) (r : RunResult) (final : State) : Prop :=
  Reaches s final ∧ final.state.result = some r

/-- `run()` from `s` does not return: every state it reaches is RUNNING (R87, R194). -/
def RunsForever (s : State) : Prop := ∀ t, Reaches s t → t.state = .running

/-- The errors a program can meet (60_exceptions.md R180): not UnsupportedOperation (42_alu.md R126), and no
OutOfBounds of a stack or load address (20_memory.md R57). -/
def fromPrograms : Machine.Error → Bool
  | .outOfBounds .stack _ => false
  | .outOfBounds .load _ => false
  | .outOfBounds _ _ => true
  | .illegalInstruction _ => true
  | .unsupportedOperation _ => false
  | .stackOverflow _ => true
  | .stackUnderflow _ => true

/-- What a run state says is true of the machine: a FAULTED record names the state's own `pc` (R183) and an
error that programs can meet. -/
def recordOk (s : State) : Prop :=
  match s.state with
  | .running => True
  | .halted => True
  | .faulted e => e.pc = s.pc ∧ fromPrograms e.error = true

/-- The invariant: memory keeps its canonical form within 0..255, `pc` is at most one past the top of memory,
and a fault's record is exact. -/
def MachineInv (s : State) : Prop := s.mem.wf ∧ s.pc ≤ 256 ∧ recordOk s

/-- The error conditions of the instruction at the program counter, each with its error, in the order of R184.
`op1` and `op2` are what its operand bytes read as; a condition on an operand is looked at only for an opcode
that has it. -/
def errorConditions (s : State) : List (Bool × Error) :=
  let a := s.pc
  let ir := s.mem.read a
  let op1 := s.mem.read (a + 1)
  let op2 := s.mem.read (a + 2)
  let twoBytes := ir ∈ [0x47, 0x45, 0x46, 0x50]
  let threeBytes := ir ∈ [0x82, 0xA2, 0xA0]
  let sp := s.reg 7
  [ (a > 255, .outOfBounds .fetch a),
    (ir ∉ [0x01, 0x82, 0x47, 0xA2, 0xA0, 0x45, 0x46, 0x50, 0x11], .illegalInstruction ir),
    ((twoBytes ∨ threeBytes) ∧ a + 1 > 255, .outOfBounds .operand (a + 1)),
    (threeBytes ∧ a + 2 > 255, .outOfBounds .operand (a + 2)),
    ((twoBytes ∨ threeBytes) ∧ op1.toNat > 7, .outOfBounds .register op1.toNat),
    (ir ∈ [0xA2, 0xA0] ∧ op2.toNat > 7, .outOfBounds .register op2.toNat),
    (ir = 0x50 ∧ a + 2 > 255, .outOfBounds .returnAddress (a + 2)),
    (ir ∈ [0x45, 0x50] ∧ sp = 0, .stackOverflow sp),
    (ir ∈ [0x46, 0x11] ∧ sp = 255, .stackUnderflow sp) ]

/-- The first error whose condition holds (R184), if any does. -/
def firstError (s : State) : Option Error :=
  (errorConditions s).findSome? fun c => if c.1 then some c.2 else none

end Sys2Proof
end

