-- ==== Sys2Proof/Certificates/Slice0/Obligations.lean ====
section
/-! DEFINITION. The statements about the CORE for the provers. Each docstring names the rule of spec/ a statement
formalises. Where a clause rests on a point the spec marks as its own decision (92_eei_decisions.md D<n>) or its
own inference, the docstring says so and names the log entry. `raise e s` is the outcome of raising error `e` in
`s`; what it does is stated once, in RaisingEntersFaultedPrecisely. -/

open Sys2Proof Sys2Proof.Machine

/-! ## Reset, invariant, run -/

/-- R211: the reset value of every piece of state. -/
def Obligations.ResetGivesEveryStateItsValue : Prop :=
  (∀ a, a ≤ 255 → State.reset.mem.read a = 0) ∧
  (∀ r : Fin 8, r ≠ 7 → State.reset.reg r = 0) ∧
  State.reset.reg 7 = 0xF4 ∧ State.reset.pc = 0 ∧ State.reset.state = .running ∧ State.reset.out = []

/-- The invariant holds at reset. -/
def Obligations.ResetMeetsInvariant : Prop := MachineInv State.reset

/-- Every step keeps the invariant: memory in canonical form within 0..255 (log 11), `pc ≤ 256` (the bound on
`pc` is an inference, log 5; R26 allows up to 258), a fault's record names the faulting address (D2, D4; log 2,
log 4) and an error that programs can meet (R57 and R126, the spec's own inference and D11). -/
def Obligations.StepKeepsInvariant : Prop :=
  ∀ s t, MachineInv s → step s = .next t → MachineInv t

/-- Every state a booted machine reaches meets the invariant. Boot with one `load` is D13 (log 12); the invariant's
parts rest on what StepKeepsInvariant names: `pc ≤ 256` is an inference (log 5; R26 allows up to 258), memory's form
is the model's choice (log 11), the fault record is D2, D4 and D11 (log 2, log 4). -/
def Obligations.BootedRunsMeetInvariant : Prop :=
  ∀ img s t, boot img = some s → Reaches s t → MachineInv t

/-- With nothing loaded the first step fails with IllegalInstruction(0x00) at 0 (R213's inference). -/
def Obligations.UnloadedMachineFailsAtOnce : Prop :=
  step State.reset =
    .next { State.reset with state := .faulted { error := .illegalInstruction 0x00, pc := 0 } }

/-- The host's `load` (20_memory.md section 7; D13, log 12): bytes from address 0, nothing else changed, an image
longer than memory refused. -/
def Obligations.LoadWritesImageOrIsRefused : Prop :=
  ∀ (s : State) (img : List Byte),
    (img.length ≤ 256 →
      ∃ t, s.load img = some t ∧ t.x = s.x ∧ t.pc = s.pc ∧ t.state = s.state ∧ t.out = s.out ∧
        (∀ a, a < img.length → t.mem.read a = img.getD a 0) ∧
        (∀ a, img.length ≤ a → t.mem.read a = s.mem.read a)) ∧
    (256 < img.length → s.load img = none)

/-- A machine steps exactly when it is RUNNING, and then it always has a next state: no instruction and no byte
stops the model otherwise (40_execution_cycle.md section 1; D1, log 1). -/
def Obligations.StepsExactlyWhenRunning : Prop :=
  ∀ s, (∃ t, step s = .next t) ↔ s.state = .running

/-- HALTED and FAULTED have no step (D1 and D14; log 1), and `run()` returns there at once, at any fuel. -/
def Obligations.TerminalStatesHaveNoStep : Prop :=
  ∀ (s : State) (n : Nat),
    (s.state = .halted → step s = .fault .noStepHalted ∧ runFor n s = some (.normal, s)) ∧
    (∀ e, s.state = .faulted e → step s = .fault (.noStepFaulted e) ∧ runFor n s = some (.error e, s))

/-- The executor with fuel (D15, log 19) finds an end of `run()` with some fuel exactly when the run has it. -/
def Obligations.ExecutorFindsExactlyTheRunsEnd : Prop :=
  ∀ s r t, (∃ n, runFor n s = some (r, t)) ↔ RunReturns s r t

/-- `run()` ends in one way only: it never returns, or it returns one result with one final state
(60_exceptions.md section 6; D14). -/
def Obligations.RunEndsInExactlyOneWay : Prop :=
  ∀ s,
    ((∃ r t, RunReturns s r t) ∨ RunsForever s) ∧
    ¬((∃ r t, RunReturns s r t) ∧ RunsForever s) ∧
    (∀ r t r' t', RunReturns s r t → RunReturns s r' t' → r = r' ∧ t = t')

/-! ## Encoding -/

/-- Decoding and encoding agree both ways: the decoder reads an instruction at the head of some bytes exactly
when those bytes are that instruction's encoding followed by the rest. Every operand byte is covered. -/
def Obligations.DecodeReadsExactlyTheEncoding : Prop :=
  ∀ (bytes : List Byte) (i : Instr) (rest : List Byte),
    decode bytes = .ok (i, rest) ↔ bytes = encode i ++ rest

/-- Words written out from R62 and R64 decode to the instructions they stand for. -/
def Obligations.WrittenOutWordsDecode : Prop :=
  decode [0b00000001] = .ok (.halt, []) ∧
  decode [0b10000010, 0b00000011, 0b11111111] = .ok (.loadImmediate 3 255, []) ∧
  decode [0b01000111, 0b00000101] = .ok (.printReg 5, []) ∧
  decode [0b10100010, 0b00000000, 0b00000001] = .ok (.multiply 0 1, []) ∧
  decode [0b10100000, 0b00000110, 0b00000010] = .ok (.add 6 2, []) ∧
  decode [0b01000101, 0b00000111] = .ok (.push 7, []) ∧
  decode [0b01000110, 0b00000010] = .ok (.pop 2, []) ∧
  decode [0b01010000, 0b00000001] = .ok (.call 1, []) ∧
  decode [0b00010001] = .ok (.ret, [])

/-- R65, with R64's nine values, and R61: a byte selects an opcode exactly when it equals that opcode's value, and
its two high bits are the operand count. -/
def Obligations.OpcodeByteSelectsByEquality : Prop :=
  (∀ (b : Byte) (o : Opcode), decodeOpcode b = some o ↔
    (b, o) ∈ [((0x01 : Byte), Opcode.halt), (0x82, .loadImmediate), (0x47, .printReg), (0xA2, .multiply),
      (0xA0, .add), (0x45, .push), (0x46, .pop), (0x50, .call), (0x11, .ret)]) ∧
  (∀ o : Opcode, o.operandCount = (o.byte.extractLsb' 6 2).toNat ∧ o.operandCount ≤ 2 ∧
    o.width = 1 + o.operandCount)

/-- R66: the other 247 opcode bytes are illegal, and fetching one raises IllegalInstruction whatever follows it,
at every address. -/
def Obligations.OtherOpcodeBytesAreIllegal : Prop :=
  ((List.range 256).filter fun n => (decodeOpcode (BitVec.ofNat 8 n)).isNone).length = 247 ∧
  (∀ s, s.state = .running → s.pc ≤ 255 →
    s.mem.read s.pc ∉ [0x01, 0x82, 0x47, 0xA2, 0xA0, 0x45, 0x46, 0x50, 0x11] →
    step s = raise (.illegalInstruction (s.mem.read s.pc)) s)

/-- The bytes at the program counter decode to `i`: the step is `exec i`, with nothing added (40_execution_cycle.md
sections 2 to 6). -/
def Obligations.StepRunsDecodedInstruction : Prop :=
  ∀ (s : State) (i : Instr) (rest : List Byte),
    s.state = .running → decode (codeBytes s) = .ok (i, rest) → step s = exec i s

/-- The bytes at the program counter decode to nothing: the fetch's error (D5, D6; log 5, log 6). An operand byte
is missing only when its address would be 256. -/
def Obligations.StepRaisesWhereNothingDecodes : Prop :=
  ∀ s, s.state = .running →
    (decode (codeBytes s) = .error .noOpcode → step s = raise (.outOfBounds .fetch s.pc) s) ∧
    (∀ b, decode (codeBytes s) = .error (.illegalOpcode b) → step s = raise (.illegalInstruction b) s) ∧
    (decode (codeBytes s) = .error .missingOperand → step s = raise (.outOfBounds .operand 256) s)

/-! ## Errors -/

/-- Raising an error (D1, D2, D4; log 2, log 4): the run state becomes FAULTED with the record, nothing else
changes, and the record's code, subkind and info are those of the error. -/
def Obligations.RaisingEntersFaultedPrecisely : Prop :=
  (∀ e s, raise e s = .next { s with state := .faulted { error := e, pc := s.pc } }) ∧
  (∀ kind n, Error.code (.outOfBounds kind n) = 1 ∧ Error.subkind (.outOfBounds kind n) = some kind ∧
    Error.info (.outOfBounds kind n) = n) ∧
  (∀ b, Error.code (.illegalInstruction b) = 2 ∧ Error.subkind (.illegalInstruction b) = none ∧
    Error.info (.illegalInstruction b) = b.toNat) ∧
  (∀ b, Error.code (.unsupportedOperation b) = 3 ∧ Error.subkind (.unsupportedOperation b) = none ∧
    Error.info (.unsupportedOperation b) = b.toNat) ∧
  (∀ b, Error.code (.stackOverflow b) = 4 ∧ Error.subkind (.stackOverflow b) = none ∧
    Error.info (.stackOverflow b) = b.toNat) ∧
  (∀ b, Error.code (.stackUnderflow b) = 5 ∧ Error.subkind (.stackUnderflow b) = none ∧
    Error.info (.stackUnderflow b) = b.toNat)

/-- A step that faults changes the run state alone, and its record names the address it faulted at
(60_exceptions.md section 2; D2, log 2). -/
def Obligations.FaultingStepsArePrecise : Prop :=
  ∀ s t e, step s = .next t → t.state = .faulted e →
    s.state = .running ∧ e.pc = s.pc ∧ t = { s with state := .faulted e }

/-- The first error condition in the spec's order is the one reported, and a step on which none holds completes
(60_exceptions.md sections 1 and 3; the order is D3, log 3). The conditions rest on the spec's decisions too: a fetch
past 255 on D5 (log 5), the missing operand on D6 (log 6), the underflow of POP r7 at the old sp on D8 (log 8), the
stack bounds on D9 (log 9), the return address on D10 (log 10). -/
def Obligations.FirstErrorConditionIsReported : Prop :=
  ∀ s, s.state = .running →
    match firstError s with
    | some e => step s = raise e s
    | none => ∃ t, step s = .next t ∧ isFaulted t = false

/-- No step of any program raises UnsupportedOperation (42_alu.md section 3; D11). -/
def Obligations.NoStepRaisesUnsupportedOperation : Prop :=
  ∀ s t e, step s = .next t → t.state = .faulted e → ∀ select, e.error ≠ .unsupportedOperation select

/-- R23: a register operand of 8 or more makes the instruction fail with OutOfBounds(REGISTER, index) before it
writes anything; 0 to 7 are valid, so an instruction whose register operands are all 0..7 never fails so. -/
def Obligations.RegisterIndexIsChecked : Prop :=
  ∀ (i : Instr) (s : State),
    (i.wellFormed = false →
      ∃ b ∈ i.operands, 7 < b.toNat ∧ exec i s = raise (.outOfBounds .register b.toNat) s) ∧
    (i.wellFormed = true → s.state = .running →
      ∃ t, exec i s = .next t ∧ ∀ e, t.state = .faulted e → ∀ n, e.error ≠ .outOfBounds .register n)

/-! ## Memory, ALU, stack unit -/

/-- R41 and R42: the two memory primitives. -/
def Obligations.MemoryAccessInRangeOrRaises : Prop :=
  ∀ (kind : BoundsKind) (addr : Nat) (v : Byte) (m : Memory),
    (addr ≤ 255 → memRead kind addr m = .ok (m.read addr)) ∧
    (addr > 255 → memRead kind addr m = .error (.outOfBounds kind addr)) ∧
    (addr ≤ 255 → ∃ m', memWrite kind addr v m = .ok m' ∧ m'.read addr = v ∧
      ∀ b, b ≠ addr → m'.read b = m.read b) ∧
    (addr > 255 → memWrite kind addr v m = .error (.outOfBounds kind addr))

/-- The memory access controller's answers (20_memory.md section 7; D16). -/
def Obligations.ControllerServesRequests : Prop :=
  ∀ (kind : BoundsKind) (addr : Nat) (v : Byte) (m : Memory),
    (addr ≤ 255 → macServe (.read kind addr) m = (.data (m.read addr), m) ∧
      macServe (.write kind addr v) m = (.ack, m.write addr v)) ∧
    (addr > 255 → macServe (.read kind addr) m = (.outOfBounds (.outOfBounds kind addr), m) ∧
      macServe (.write kind addr v) m = (.outOfBounds (.outOfBounds kind addr), m))

/-- R121: the ALU's operation table. -/
def Obligations.AluOperationTable : Prop :=
  ∀ select va vb : Byte,
    alu 0xA0 va vb = .ok (BitVec.ofNat 8 ((va.toNat + vb.toNat) % 256)) ∧
    alu 0xA2 va vb = .ok (BitVec.ofNat 8 ((va.toNat * vb.toNat) % 256)) ∧
    (select ≠ 0xA0 → select ≠ 0xA2 → alu select va vb = .error (.unsupportedOperation select))

/-- R140: the stack-pointer management unit, the stack pointer's reset value and its two primitives. -/
def Obligations.StackUnitPrimitives : Prop :=
  State.reset.reg 7 = 0xF4 ∧
  ∀ (s : State) (v : Byte),
    (s.reg 7 = 0 → pushByte v s = .error (.stackOverflow 0)) ∧
    (s.reg 7 ≠ 0 → pushByte v s =
      .ok { s with x := s.x.set 7 (s.reg 7 - 1), mem := s.mem.write ((s.reg 7).toNat - 1) v }) ∧
    (s.reg 7 = 255 → popByte s = .error (.stackUnderflow 255)) ∧
    (s.reg 7 ≠ 255 → popByte s =
      .ok (s.mem.read (s.reg 7).toNat, { s with x := s.x.set 7 (s.reg 7 + 1) }))

/-! ## The nine instructions: encoding, result, errors -/

/-- HALT (40_execution_cycle.md section 4). That `pc` advances is D7 (log 7); the parameter's other value is stated
beside it. -/
def Obligations.HaltStopsTheRun : Prop :=
  encode .halt = [0x01] ∧
  ∀ s, exec .halt s = .next { s with pc := s.pc + 1, state := .halted } ∧
    execHaltWith .atHalt s = .next { s with state := .halted }

/-- LOAD_IMMEDIATE (41_data_movement.md), register 7 included. The missing operand's address, 256 at 254 and at 255,
is D6 (log 6); that x[7] is written with no stack check is D21 (log 9). -/
def Obligations.LoadImmediateWritesItsRegister : Prop :=
  (∀ reg imm8, encode (.loadImmediate reg imm8) = [0x82, reg, imm8]) ∧
  (∀ (s : State) (reg imm8 : Byte) (h : reg.toNat < 8),
    exec (.loadImmediate reg imm8) s =
      .next { s with x := s.x.set reg.toNat imm8, pc := s.pc + 3 }) ∧
  (∀ (s : State) (reg imm8 : Byte), 7 < reg.toNat →
    exec (.loadImmediate reg imm8) s = raise (.outOfBounds .register reg.toNat) s) ∧
  (∀ s, s.state = .running → s.mem.read s.pc = 0x82 → s.pc = 254 ∨ s.pc = 255 →
    step s = raise (.outOfBounds .operand 256) s)

/-- PRINT_REG (R101). -/
def Obligations.PrintRegAppendsItsRegister : Prop :=
  (∀ reg, encode (.printReg reg) = [0x47, reg]) ∧
  (∀ (s : State) (reg : Byte) (h : reg.toNat < 8),
    exec (.printReg reg) s = .next { s with out := s.out ++ [s.reg ⟨reg.toNat, h⟩], pc := s.pc + 2 }) ∧
  (∀ (s : State) (reg : Byte), 7 < reg.toNat →
    exec (.printReg reg) s = raise (.outOfBounds .register reg.toNat) s) ∧
  (∀ s, s.state = .running → s.mem.read s.pc = 0x47 → s.pc = 255 →
    step s = raise (.outOfBounds .operand 256) s)

/-- MULTIPLY (42_alu.md section 3): the product mod 256, both registers read before the write. The missing operand's
address, 256 at 254 and at 255, is D6 (log 6); that x[7] is written with no stack check is D21 (log 9). -/
def Obligations.MultiplyWritesProductMod256 : Prop :=
  (∀ regA regB, encode (.multiply regA regB) = [0xA2, regA, regB]) ∧
  (∀ (s : State) (regA regB : Byte) (hA : regA.toNat < 8) (hB : regB.toNat < 8),
    exec (.multiply regA regB) s =
      .next { s with
        x := s.x.set regA.toNat
          (BitVec.ofNat 8 (((s.reg ⟨regA.toNat, hA⟩).toNat * (s.reg ⟨regB.toNat, hB⟩).toNat) % 256)),
        pc := s.pc + 3 }) ∧
  (∀ (s : State) (regA regB : Byte), 7 < regA.toNat →
    exec (.multiply regA regB) s = raise (.outOfBounds .register regA.toNat) s) ∧
  (∀ (s : State) (regA regB : Byte), regA.toNat < 8 → 7 < regB.toNat →
    exec (.multiply regA regB) s = raise (.outOfBounds .register regB.toNat) s) ∧
  (∀ s, s.state = .running → s.mem.read s.pc = 0xA2 → s.pc = 254 ∨ s.pc = 255 →
    step s = raise (.outOfBounds .operand 256) s)

/-- ADD (42_alu.md section 3): the sum mod 256, both registers read before the write; the carry is not an error. The
missing operand's address, 256 at 254 and at 255, is D6 (log 6); that x[7] is written with no stack check is D21
(log 9). -/
def Obligations.AddWritesSumMod256 : Prop :=
  (∀ regA regB, encode (.add regA regB) = [0xA0, regA, regB]) ∧
  (∀ (s : State) (regA regB : Byte) (hA : regA.toNat < 8) (hB : regB.toNat < 8),
    exec (.add regA regB) s =
      .next { s with
        x := s.x.set regA.toNat
          (BitVec.ofNat 8 (((s.reg ⟨regA.toNat, hA⟩).toNat + (s.reg ⟨regB.toNat, hB⟩).toNat) % 256)),
        pc := s.pc + 3 }) ∧
  (∀ (s : State) (regA regB : Byte), 7 < regA.toNat →
    exec (.add regA regB) s = raise (.outOfBounds .register regA.toNat) s) ∧
  (∀ (s : State) (regA regB : Byte), regA.toNat < 8 → 7 < regB.toNat →
    exec (.add regA regB) s = raise (.outOfBounds .register regB.toNat) s) ∧
  (∀ s, s.state = .running → s.mem.read s.pc = 0xA0 → s.pc = 254 ∨ s.pc = 255 →
    step s = raise (.outOfBounds .operand 256) s)

/-- PUSH (43_stack.md section 2). `PUSH r7` pushes the old stack pointer under D8 (log 8); the overflow condition is
D9 (log 9), the missing operand D6 (log 6). -/
def Obligations.PushStoresItsRegister : Prop :=
  (∀ reg, encode (.push reg) = [0x45, reg]) ∧
  (∀ (s : State) (reg : Byte) (h : reg.toNat < 8), s.reg 7 ≠ 0 →
    exec (.push reg) s =
      .next { s with
        mem := s.mem.write ((s.reg 7).toNat - 1) (s.reg ⟨reg.toNat, h⟩),
        x := s.x.set 7 (s.reg 7 - 1),
        pc := s.pc + 2 }) ∧
  (∀ (s : State) (reg : Byte), reg.toNat < 8 → s.reg 7 = 0 →
    exec (.push reg) s = raise (.stackOverflow 0) s) ∧
  (∀ (s : State) (reg : Byte), 7 < reg.toNat →
    exec (.push reg) s = raise (.outOfBounds .register reg.toNat) s) ∧
  (∀ s, s.state = .running → s.mem.read s.pc = 0x45 → s.pc = 255 →
    step s = raise (.outOfBounds .operand 256) s)

/-- POP (43_stack.md section 2). The destination is written after the increment, so `POP r7` leaves the popped byte,
under D8 (log 8); the underflow condition is D9 (log 9), the missing operand D6 (log 6). -/
def Obligations.PopLoadsItsRegister : Prop :=
  (∀ reg, encode (.pop reg) = [0x46, reg]) ∧
  (∀ (s : State) (reg : Byte) (h : reg.toNat < 8), s.reg 7 ≠ 255 →
    exec (.pop reg) s =
      .next { s with
        x := (s.x.set 7 (s.reg 7 + 1)).set reg.toNat (s.mem.read (s.reg 7).toNat),
        pc := s.pc + 2 }) ∧
  (∀ (s : State) (reg : Byte), reg.toNat < 8 → s.reg 7 = 255 →
    exec (.pop reg) s = raise (.stackUnderflow 255) s) ∧
  (∀ (s : State) (reg : Byte), 7 < reg.toNat →
    exec (.pop reg) s = raise (.outOfBounds .register reg.toNat) s) ∧
  (∀ s, s.state = .running → s.mem.read s.pc = 0x46 → s.pc = 255 →
    step s = raise (.outOfBounds .operand 256) s)

/-- CALL (44_call_return.md). `CALL r7` jumps to the old stack pointer under D8 (log 8); the failure at 254 is D10
(log 10); the overflow condition is D9 (log 9), the missing operand D6 (log 6). -/
def Obligations.CallPushesReturnAddressAndJumps : Prop :=
  (∀ reg, encode (.call reg) = [0x50, reg]) ∧
  (∀ (s : State) (reg : Byte) (h : reg.toNat < 8), s.pc ≤ 253 → s.reg 7 ≠ 0 →
    exec (.call reg) s =
      .next { s with
        mem := s.mem.write ((s.reg 7).toNat - 1) (BitVec.ofNat 8 (s.pc + 2)),
        x := s.x.set 7 (s.reg 7 - 1),
        pc := (s.reg ⟨reg.toNat, h⟩).toNat }) ∧
  (∀ (s : State) (reg : Byte), reg.toNat < 8 → s.pc ≤ 253 → s.reg 7 = 0 →
    exec (.call reg) s = raise (.stackOverflow 0) s) ∧
  (∀ (s : State) (reg : Byte), reg.toNat < 8 → 253 < s.pc →
    exec (.call reg) s = raise (.outOfBounds .returnAddress (s.pc + 2)) s) ∧
  (∀ (s : State) (reg : Byte), 7 < reg.toNat →
    exec (.call reg) s = raise (.outOfBounds .register reg.toNat) s) ∧
  (∀ s, s.state = .running → s.mem.read s.pc = 0x50 → s.pc = 255 →
    step s = raise (.outOfBounds .operand 256) s)

/-- RETURN (44_call_return.md): it has no operand, so it runs at address 255 too. That it underflows at sp = 255 and
nowhere else is D9 (log 9). -/
def Obligations.ReturnPopsProgramCounter : Prop :=
  encode .ret = [0x11] ∧
  (∀ s : State, s.reg 7 ≠ 255 →
    exec .ret s =
      .next { s with x := s.x.set 7 (s.reg 7 + 1), pc := (s.mem.read (s.reg 7).toNat).toNat }) ∧
  (∀ s : State, s.reg 7 = 255 → exec .ret s = raise (.stackUnderflow 255) s) ∧
  (∀ s, s.state = .running → s.mem.read s.pc = 0x11 → s.pc ≤ 255 → step s = exec .ret s)

/-- The two values of `SP_ALIAS_ORDER` (43_stack.md section 1; D8, log 8): their results for x[7], their agreement for
every other operand byte, and that the instructions use OPERANDS_FIRST. The stack bounds are D9 (log 9). -/
def Obligations.SpAliasOrderResults : Prop :=
  (∀ s : State, s.reg 7 ≠ 0 →
    execPushWith .operandsFirst 7 s =
      .next { s with mem := s.mem.write ((s.reg 7).toNat - 1) (s.reg 7), x := s.x.set 7 (s.reg 7 - 1),
                     pc := s.pc + 2 } ∧
    execPushWith .sequential 7 s =
      .next { s with mem := s.mem.write ((s.reg 7).toNat - 1) (s.reg 7 - 1), x := s.x.set 7 (s.reg 7 - 1),
                     pc := s.pc + 2 }) ∧
  (∀ s t u : State, s.reg 7 ≠ 0 → s.pc ≤ 253 → execCallWith .operandsFirst 7 s = .next t →
    execCallWith .sequential 7 s = .next u →
    t.pc = (s.reg 7).toNat ∧ u.pc = (s.reg 7).toNat - 1) ∧
  (∀ s : State, s.reg 7 ≠ 255 →
    execPopWith .operandsFirst 7 s =
      .next { s with x := s.x.set 7 (s.mem.read (s.reg 7).toNat), pc := s.pc + 2 }) ∧
  (∀ s : State, s.mem.read (s.reg 7).toNat ≠ 255 →
    execPopWith .sequential 7 s =
      .next { s with x := s.x.set 7 (s.mem.read (s.reg 7).toNat + 1), pc := s.pc + 2 }) ∧
  (∀ s : State, s.mem.read (s.reg 7).toNat = 255 →
    execPopWith .sequential 7 s = raise (.stackUnderflow 255) s) ∧
  (∀ (s : State) (reg : Byte), reg ≠ 7 →
    execPushWith .sequential reg s = execPushWith .operandsFirst reg s ∧
    execPopWith .sequential reg s = execPopWith .operandsFirst reg s ∧
    execCallWith .sequential reg s = execCallWith .operandsFirst reg s) ∧
  (∀ (s : State) (reg : Byte),
    exec (.push reg) s = execPushWith .operandsFirst reg s ∧
    exec (.pop reg) s = execPopWith .operandsFirst reg s ∧
    exec (.call reg) s = execCallWith .operandsFirst reg s)

/-! ## Frames -/

/-- LOAD_IMMEDIATE, MULTIPLY and ADD leave unchanged: every register but the first operand's, all of memory, the
output, and the run state unless they fault. What a fault leaves is D2 (log 2). -/
def Obligations.RegisterWritersFrame : Prop :=
  ∀ (s t : State) (i : Instr) (d : Byte),
    ((∃ imm8, i = .loadImmediate d imm8) ∨ (∃ b, i = .multiply d b) ∨ (∃ b, i = .add d b)) →
    exec i s = .next t →
    (∀ r : Fin 8, r.val ≠ d.toNat → t.reg r = s.reg r) ∧
    (∀ a, t.mem.read a = s.mem.read a) ∧ t.out = s.out ∧
    (t.state = s.state ∨ isFaulted t = true)

/-- HALT and PRINT_REG leave unchanged: every register and all of memory; HALT also the output, and PRINT_REG the
run state unless it faults and the output before the byte it adds. What a fault leaves is D2 (log 2). -/
def Obligations.HaltAndPrintFrame : Prop :=
  (∀ s t : State, exec .halt s = .next t →
    (∀ r : Fin 8, t.reg r = s.reg r) ∧ (∀ a, t.mem.read a = s.mem.read a) ∧ t.out = s.out) ∧
  (∀ (s t : State) (reg : Byte), exec (.printReg reg) s = .next t →
    (∀ r : Fin 8, t.reg r = s.reg r) ∧ (∀ a, t.mem.read a = s.mem.read a) ∧ s.out <+: t.out ∧
    (t.state = s.state ∨ isFaulted t = true))

/-- POP and RETURN leave unchanged: every register but the stack pointer, and for POP its destination, all of
memory (the popped byte stays), the output, and the run state unless they fault. What a fault leaves is D2 (log 2). -/
def Obligations.PopAndReturnFrame : Prop :=
  (∀ (s t : State) (reg : Byte), exec (.pop reg) s = .next t →
    (∀ r : Fin 8, r ≠ 7 → r.val ≠ reg.toNat → t.reg r = s.reg r) ∧
    (∀ a, t.mem.read a = s.mem.read a) ∧ t.out = s.out ∧ (t.state = s.state ∨ isFaulted t = true)) ∧
  (∀ s t : State, exec .ret s = .next t →
    (∀ r : Fin 8, r ≠ 7 → t.reg r = s.reg r) ∧
    (∀ a, t.mem.read a = s.mem.read a) ∧ t.out = s.out ∧ (t.state = s.state ∨ isFaulted t = true))

/-- PUSH and CALL leave unchanged: every register but the stack pointer, every byte of memory but the one at the
address they store to, the output, and the run state unless they fault; with `sp = 0` they store nothing (D9,
log 9). What a fault leaves is D2 (log 2). -/
def Obligations.StackStoresFrame : Prop :=
  ∀ (s t : State) (i : Instr) (reg : Byte), (i = .push reg ∨ i = .call reg) → exec i s = .next t →
    (∀ r : Fin 8, r ≠ 7 → t.reg r = s.reg r) ∧
    (∀ a, a = pushAddr s → ∀ b, b ≠ a → t.mem.read b = s.mem.read b) ∧
    (s.reg 7 = 0 → ∀ b, t.mem.read b = s.mem.read b) ∧
    t.out = s.out ∧ (t.state = s.state ∨ isFaulted t = true)

/-! ## Rules over all instructions -/

/-- Where an instruction that completes leaves `pc`: past its own bytes, for all but CALL and RETURN
(40_execution_cycle.md section 4; HALT among them is D7, log 7, and `CALL r7` is D8, log 8). -/
def Obligations.EveryInstructionSetsProgramCounter : Prop :=
  (∀ (i : Instr) (s t : State), (∀ reg, i ≠ .call reg) → i ≠ .ret → exec i s = .next t → isFaulted t = false →
    t.pc = s.pc + (encode i).length) ∧
  (∀ (reg : Byte) (s t : State), exec (.call reg) s = .next t → isFaulted t = false →
    ∃ h : reg.toNat < 8, t.pc = (s.reg ⟨reg.toNat, h⟩).toNat) ∧
  (∀ s t : State, exec .ret s = .next t → isFaulted t = false →
    t.pc = (s.mem.read (s.reg 7).toNat).toNat)

/-- Only the HALT opcode takes a machine to HALTED (10_state.md section 5). -/
def Obligations.OnlyHaltEntersHalted : Prop :=
  ∀ s t, step s = .next t → (t.state = .halted ↔ s.pc ≤ 255 ∧ opcodeByte s = 0x01)

/-- Only PRINT_REG adds to the output, one byte a step, and nothing takes a byte from it (41_data_movement.md; a
faulting PRINT_REG emits nothing, D2, log 2). -/
def Obligations.OnlyPrintRegEmits : Prop :=
  ∀ s t, step s = .next t →
    t.out = s.out ∨
    (opcodeByte s = 0x47 ∧ ∃ r : Fin 8, (s.mem.read (s.pc + 1)).toNat = r.val ∧ t.out = s.out ++ [s.reg r])

/-- Only PUSH and CALL change memory in a step, and only the byte at `sp - 1` (20_memory.md section 2; that a fault
stores nothing is D2, log 2, and that `sp = 0` faults is D9, log 9). -/
def Obligations.OnlyPushAndCallChangeMemory : Prop :=
  ∀ s t, step s = .next t → ∀ a, t.mem.read a ≠ s.mem.read a →
    (opcodeByte s = 0x45 ∨ opcodeByte s = 0x50) ∧ s.reg 7 ≠ 0 ∧ a = pushAddr s

/-- PUSH then POP (43_stack.md section 3, the spec's own inference; x[7] as operand is D8, log 8, and that both
complete rests on the stack bounds, D9, log 9). -/
def Obligations.PushPopRoundTrip : Prop :=
  ∀ (s : State) (r r2 : Byte) (h : r.toNat < 8) (h2 : r2.toNat < 8), s.reg 7 ≠ 0 →
    ∃ t u, exec (.push r) s = .next t ∧ exec (.pop r2) t = .next u ∧
      u.reg ⟨r2.toNat, h2⟩ = s.reg ⟨r.toNat, h⟩ ∧
      (r2 ≠ 7 → u.reg 7 = s.reg 7) ∧
      u.mem.read ((s.reg 7).toNat - 1) = s.reg ⟨r.toNat, h⟩ ∧ u.state = s.state

/-- CALL, a subroutine that leaves `sp` and the byte there as it found them, then RETURN (44_call_return.md, the
spec's own inference): execution resumes after the CALL. `CALL r7` is D8 (log 8), the stack bounds are D9 (log 9),
the bound on the return address is D10 (log 10). -/
def Obligations.CallReturnRoundTrip : Prop :=
  ∀ (s : State) (reg : Byte) (h : reg.toNat < 8), s.pc ≤ 253 → s.reg 7 ≠ 0 →
    ∃ t, exec (.call reg) s = .next t ∧ t.pc = (s.reg ⟨reg.toNat, h⟩).toNat ∧ t.state = s.state ∧
      ∀ u : State, u.reg 7 = t.reg 7 → u.mem.read (t.reg 7).toNat = t.mem.read (t.reg 7).toNat →
        ∃ w, exec .ret u = .next w ∧ w.pc = s.pc + 2 ∧ w.reg 7 = s.reg 7 ∧ w.state = u.state

/-- A byte a PUSH or CALL stores is what the very next fetch of that address reads, as a fetched opcode or operand
(20_memory.md section 6, the spec's own inference). That PUSH r7 stores the old stack pointer is D8 (log 8). -/
def Obligations.NextFetchSeesStackStore : Prop :=
  ∀ (s t : State) (v : Byte),
    ((∃ reg, ∃ h : reg.toNat < 8, exec (.push reg) s = .next t ∧ v = s.reg ⟨reg.toNat, h⟩) ∨
      (∃ reg, exec (.call reg) s = .next t ∧ v = BitVec.ofNat 8 (s.pc + 2))) →
    isFaulted t = false →
    (t.pc = pushAddr s → fetchOpcode t = .ok v) ∧
    (∀ n k, k ≤ n → t.pc + k = pushAddr s → fetchOperand n k t = .ok v)

/-! ## What the host sees -/

/-- An output value's line (41_data_movement.md; the line feed is D12, log 13): decimal digits of the value, no
leading zero, then a line feed. -/
def Obligations.OutputLineIsDecimal : Prop :=
  ∀ v : Byte, ∃ digits : List Char, renderLine v = digits ++ [Char.ofNat 10] ∧ digits ≠ [] ∧
    (∀ c ∈ digits, 48 ≤ c.toNat ∧ c.toNat ≤ 57) ∧
    digits.foldl (fun n c => 10 * n + (c.toNat - 48)) 0 = v.toNat ∧
    (digits.head? = some '0' → digits = ['0'])

/-- The diagnostic trace (40_execution_cycle.md section 5; D18, log 13): `pc`, the registers, and three bytes, those
beyond 255 absent. -/
def Obligations.TraceShowsAbsentBytesBeyond255 : Prop :=
  ∀ s : State, (traceLine s).pc = s.pc ∧ (traceLine s).regs = s.x ∧ (traceLine s).bytes.length = 3 ∧
    ∀ k, k < 3 → (traceLine s).bytes[k]? =
      some (if s.pc + k ≤ 255 then some (s.mem.read (s.pc + k)) else none)
end

