-- ==== Sys2Proof/Laws/Memory.lean ====
section
/-! SUPPORT. The laws of memory: a read after a write, and that every memory operation keeps the canonical form. -/

namespace Sys2Proof.Machine

namespace Memory

theorem read_erase (m : Memory) (a b : Nat) :
    (m.erase a).read b = if b = a then unlisted else m.read b := by
  induction m with
  | nil => simp [erase, read]
  | cons c rest ih =>
    simp only [erase, List.filter_cons, bne_iff_ne, ne_eq] at ih ⊢
    by_cases hc : c.1 = a
    · simp only [hc, not_true_eq_false, if_false, read, ih]
      by_cases hb : b = a
      · simp [hb]
      · simp [hb, Ne.symm hb]
    · simp only [hc, not_false_eq_true, if_true, read, ih]
      by_cases hb : b = a
      · subst hb; simp [hc]
      · simp [hb]

theorem read_place (m : Memory) (a b : Nat) (v : Byte) (h : ∀ c ∈ m, c.1 ≠ a) :
    (place a v m).read b = if b = a then v else m.read b := by
  induction m with
  | nil => simp [place, read, eq_comm]
  | cons c rest ih =>
    have hc : c.1 ≠ a := h c (by simp)
    have hr := ih fun d hd => h d (by simp [hd])
    simp only [place]
    split
    · simp [read, eq_comm]
    · simp only [read, hr]
      by_cases hb : b = a
      · simp [hb, hc]
      · simp [hb]

theorem erase_no_entry (m : Memory) (a : Nat) : ∀ c ∈ m.erase a, c.1 ≠ a := by
  simp [erase]

/-- A read after a write: the byte written at its address, and every other address as before. -/
theorem read_write (m : Memory) (a b : Nat) (v : Byte) :
    (m.write a v).read b = if b = a then v else m.read b := by
  unfold write
  split
  · next hv => simp [read_erase, hv]
  · rw [read_place _ _ _ _ (erase_no_entry m a), read_erase]
    split <;> rfl

@[simp] theorem read_write_same (m : Memory) (a : Nat) (v : Byte) : (m.write a v).read a = v := by
  simp [read_write]

theorem read_write_other (m : Memory) {a b : Nat} (v : Byte) (h : b ≠ a) :
    (m.write a v).read b = m.read b := by
  simp [read_write, h]

theorem erase_wf {m : Memory} (a : Nat) (h : m.wf) : (m.erase a).wf :=
  ⟨h.1.filter _, fun c hc => h.2 c (List.mem_of_mem_filter hc)⟩

theorem mem_place (m : Memory) (a : Nat) (v : Byte) (c : Host.Cell) :
    c ∈ place a v m ↔ c = (a, v) ∨ c ∈ m := by
  induction m with
  | nil => simp [place]
  | cons d rest ih =>
    simp only [place]
    split
    · simp
    · simp only [List.mem_cons, ih]; tauto

theorem place_wf {m : Memory} {a : Nat} {v : Byte} (h : m.wf) (ha : a < Config.memSize)
    (hv : v ≠ unlisted) (hno : ∀ c ∈ m, c.1 ≠ a) : (place a v m).wf := by
  refine ⟨?_, fun c hc => ?_⟩
  · have hs := h.1
    clear h
    induction m with
    | nil => simp [place]
    | cons d rest ih =>
      have hd : d.1 ≠ a := hno d (by simp)
      rw [List.pairwise_cons] at hs
      simp only [place]
      split
      · next hlt =>
        refine List.pairwise_cons.2 ⟨fun c hc => ?_, List.pairwise_cons.2 hs⟩
        rcases List.mem_cons.1 hc with rfl | hc
        · exact hlt
        · exact hlt.trans (hs.1 c hc)
      · next hge =>
        refine List.pairwise_cons.2 ⟨fun c hc => ?_, ih (fun c hc => hno c (by simp [hc])) hs.2⟩
        rcases (mem_place rest a v c).1 hc with rfl | hc
        · exact lt_of_le_of_ne (Nat.le_of_not_lt hge) hd
        · exact hs.1 c hc
  · rcases (mem_place m a v c).1 hc with rfl | hc
    · exact ⟨ha, hv⟩
    · exact h.2 c hc

/-- A write to an existing address keeps the canonical form. -/
theorem write_wf {m : Memory} {a : Nat} (v : Byte) (h : m.wf) (ha : a < Config.memSize) :
    (m.write a v).wf := by
  unfold write
  split
  · exact erase_wf a h
  · next hv => exact place_wf (erase_wf a h) ha hv (erase_no_entry m a)

end Memory

/-- What the controller's write can answer: the memory with one cell written, in range only. -/
theorem memWrite_eq_ok {kind : BoundsKind} {a : Nat} {v : Byte} {m m' : Memory} :
    memWrite kind a v m = .ok m' ↔ a < 256 ∧ m' = m.write a v := by
  unfold memWrite
  by_cases h : a < 256 <;> simp [h, eq_comm]

/-- What the controller's read can answer: the byte at the address, in range only. -/
theorem memRead_eq_ok {kind : BoundsKind} {a : Nat} {v : Byte} {m : Memory} :
    memRead kind a m = .ok v ↔ a < 256 ∧ v = m.read a := by
  unfold memRead
  by_cases h : a < 256 <;> simp [h, eq_comm]

/-- The controller's write keeps the canonical form. -/
theorem memWrite_wf {kind : BoundsKind} {a : Nat} {v : Byte} {m m' : Memory} (h : m.wf)
    (hw : memWrite kind a v m = .ok m') : m'.wf := by
  obtain ⟨ha, rfl⟩ := memWrite_eq_ok.1 hw
  exact Memory.write_wf v h ha

/-- Serving any request keeps the canonical form. -/
theorem macServe_wf (r : MacRequest) {m : Memory} (h : m.wf) : (macServe r m).2.wf := by
  cases r with
  | read kind a =>
    simp only [macServe]
    split <;> exact h
  | write kind a v =>
    simp only [macServe]
    split
    · next hw => exact memWrite_wf h hw
    · exact h

/-- Placing an instruction's bytes keeps the canonical form. -/
theorem placeBytes_wf (bytes : List Byte) (a : Nat) {m : Memory} (h : m.wf) : (placeBytes a bytes m).wf := by
  induction bytes generalizing a m with
  | nil => exact h
  | cons b rest ih =>
    refine ih (a + 1) ?_
    split
    · next ha => exact Memory.write_wf b h ha
    · exact h

/-- Loading an image keeps the canonical form. -/
theorem loadBytes_wf (img : List Byte) (a : Nat) {m m' : Memory} (h : m.wf)
    (hl : loadBytes a img m = .ok m') : m'.wf := by
  induction img generalizing a m with
  | nil => cases hl; exact h
  | cons b rest ih =>
    simp only [loadBytes] at hl
    cases hw : memWrite .load a b m with
    | error e => simp [hw, bind, Except.bind] at hl
    | ok m1 =>
      rw [hw] at hl
      exact ih (a + 1) (memWrite_wf h hw) hl

/-- Reset memory lists nothing, so it is in canonical form. -/
theorem reset_mem_wf : State.reset.mem.wf := by decide

end Sys2Proof.Machine
end

