-- ==== Sys2Proof/Laws/State.lean ====
section
/-! SUPPORT. One lemma per field per update of the state, and how registers read after an update. -/

namespace Sys2Proof.Machine.State

variable (s : State) (i j : Fin 8) (v : Byte) (n : Nat) (m : Memory) (r : RunState)

@[simp] theorem setReg_mem : (s.setReg i v).mem = s.mem := rfl
@[simp] theorem setReg_pc : (s.setReg i v).pc = s.pc := rfl
@[simp] theorem setReg_state : (s.setReg i v).state = s.state := rfl
@[simp] theorem setReg_out : (s.setReg i v).out = s.out := rfl

@[simp] theorem setSp_mem : (s.setSp v).mem = s.mem := rfl
@[simp] theorem setSp_pc : (s.setSp v).pc = s.pc := rfl
@[simp] theorem setSp_state : (s.setSp v).state = s.state := rfl
@[simp] theorem setSp_out : (s.setSp v).out = s.out := rfl

@[simp] theorem setPc_mem : (s.setPc n).mem = s.mem := rfl
@[simp] theorem setPc_x : (s.setPc n).x = s.x := rfl
@[simp] theorem setPc_pc : (s.setPc n).pc = n := rfl
@[simp] theorem setPc_state : (s.setPc n).state = s.state := rfl
@[simp] theorem setPc_out : (s.setPc n).out = s.out := rfl
@[simp] theorem setPc_reg : (s.setPc n).reg i = s.reg i := rfl
@[simp] theorem setPc_sp : (s.setPc n).sp = s.sp := rfl

@[simp] theorem setMem_mem : (s.setMem m).mem = m := rfl
@[simp] theorem setMem_x : (s.setMem m).x = s.x := rfl
@[simp] theorem setMem_pc : (s.setMem m).pc = s.pc := rfl
@[simp] theorem setMem_state : (s.setMem m).state = s.state := rfl
@[simp] theorem setMem_out : (s.setMem m).out = s.out := rfl
@[simp] theorem setMem_reg : (s.setMem m).reg i = s.reg i := rfl
@[simp] theorem setMem_sp : (s.setMem m).sp = s.sp := rfl

@[simp] theorem setRunState_mem : (s.setRunState r).mem = s.mem := rfl
@[simp] theorem setRunState_x : (s.setRunState r).x = s.x := rfl
@[simp] theorem setRunState_pc : (s.setRunState r).pc = s.pc := rfl
@[simp] theorem setRunState_state : (s.setRunState r).state = r := rfl
@[simp] theorem setRunState_out : (s.setRunState r).out = s.out := rfl
@[simp] theorem setRunState_reg : (s.setRunState r).reg i = s.reg i := rfl

@[simp] theorem emit_mem : (s.emit v).mem = s.mem := rfl
@[simp] theorem emit_x : (s.emit v).x = s.x := rfl
@[simp] theorem emit_pc : (s.emit v).pc = s.pc := rfl
@[simp] theorem emit_state : (s.emit v).state = s.state := rfl
@[simp] theorem emit_out : (s.emit v).out = s.out ++ [v] := rfl
@[simp] theorem emit_reg : (s.emit v).reg i = s.reg i := rfl

/-- A register reads what was written to it, and every other register as before. -/
theorem reg_setReg : (s.setReg i v).reg j = if j = i then v else s.reg j := by
  by_cases h : j = i
  · subst h; simp [reg, setReg]
  · have hne : i.val ≠ j.val := fun e => h (Fin.ext e.symm)
    simp [reg, setReg, h, hne]

@[simp] theorem setReg_reg_same : (s.setReg i v).reg i = v := by simp [reg_setReg]

theorem setReg_reg_other (h : j ≠ i) : (s.setReg i v).reg j = s.reg j := by simp [reg_setReg, h]

/-- The stack pointer reads what was written to it. -/
@[simp] theorem setSp_sp : (s.setSp v).sp = v := by simp [sp, setSp]

theorem setSp_reg_other (h : j ≠ 7) : (s.setSp v).reg j = s.reg j :=
  setReg_reg_other s Config.spIndex j v h

end Sys2Proof.Machine.State
end

