-- ==== Sys2Proof/Laws/Ops.lean ====
section
/-! SUPPORT. One lemma per shared operation that says everything it can do; proofs about the instructions cite these
and do not unfold the operations again. -/

namespace Sys2Proof.Machine

/-! ## Reading the pseudocode's sequences of checks -/

variable {α β ε : Type}

@[simp] theorem except_ok_bind (a : α) (f : α → Except ε β) : (Except.ok a >>= f) = f a := rfl
@[simp] theorem except_error_bind (e : ε) (f : α → Except ε β) :
    ((Except.error e : Except ε α) >>= f) = .error e := rfl
@[simp] theorem except_pure (a : α) : (pure a : Except ε α) = .ok a := rfl
@[simp] theorem except_throw (e : ε) : (throw e : Except ε α) = .error e := rfl

@[simp] theorem settle_ok (s t : State) : settle s (.ok t) = .next t := rfl
@[simp] theorem settle_error (s : State) (e : Error) : settle s (.error e) = raise e s := rfl

/-- Ending an instruction always answers a next state. -/
theorem settle_next (s : State) (r : Except Error State) : ∃ t, settle s r = .next t := by
  cases r <;> exact ⟨_, rfl⟩

/-- The only next state an error gives. -/
theorem raise_eq_next {e : Error} {s t : State} :
    raise e s = .next t ↔ t = { s with state := .faulted { error := e, pc := s.pc } } := by
  simp [raise, eq_comm]

/-- How an instruction ends: with the state it computed, or with its error raised in the state it began in. -/
theorem settle_cases {s t : State} {r : Except Error State} (h : settle s r = .next t) :
    r = .ok t ∨ ∃ e, r = .error e ∧ raise e s = .next t := by
  cases r with
  | ok u => cases h; exact .inl rfl
  | error e => exact .inr ⟨e, rfl, h⟩

/-- The register an index operand names. -/
theorem checkReg_ok {b : Byte} {i : Fin 8} : checkReg b = .ok i ↔ b.toNat = i.val := by
  unfold checkReg
  split
  · next h => simp [Fin.ext_iff]
  · next h => simp; omega

/-- When an index operand names no register, and the error then. -/
theorem checkReg_error {b : Byte} {e : Error} :
    checkReg b = .error e ↔ 7 < b.toNat ∧ e = .outOfBounds .register b.toNat := by
  unfold checkReg
  split
  · next h => simp; omega
  · next h => simp [eq_comm]; omega

/-- An index below 8 passes the check. -/
theorem checkReg_of_lt {b : Byte} (h : b.toNat < 8) : checkReg b = .ok ⟨b.toNat, h⟩ :=
  checkReg_ok.2 rfl

/-- An index above 7 fails the check. -/
theorem checkReg_of_gt {b : Byte} (h : 7 < b.toNat) :
    checkReg b = .error (.outOfBounds .register b.toNat) :=
  checkReg_error.2 ⟨h, rfl⟩

/-- The byte of a register number is checked to that register. -/
theorem checkReg_ofNat (i : Fin 8) : checkReg (BitVec.ofNat 8 i.val) = .ok i := by
  rw [checkReg_ok, BitVec.toNat_ofNat]
  have := i.isLt
  omega

/-- An in-range read through the controller. -/
theorem memRead_of_lt (kind : BoundsKind) {a : Nat} (m : Memory) (h : a < 256) :
    memRead kind a m = .ok (m.read a) := if_pos h

/-- A read through the controller beyond 255. -/
theorem memRead_of_ge (kind : BoundsKind) {a : Nat} (m : Memory) (h : 256 ≤ a) :
    memRead kind a m = .error (.outOfBounds kind a) := if_neg (Nat.not_lt.2 h)

theorem pushAddr_lt (s : State) : pushAddr s < 256 := by
  have := s.sp.isLt
  unfold pushAddr
  omega

/-- A push: the overflow, or both its writes. -/
theorem pushByte_eq (v : Byte) (s : State) :
    pushByte v s =
      if s.sp = 0 then .error (.stackOverflow 0)
      else .ok ((s.setSp (s.sp - 1)).setMem (s.mem.write (pushAddr s) v)) := by
  unfold pushByte
  split
  · next h => rw [h]
  · simp [memWrite, pushAddr_lt, bind, Except.bind, pure, Except.pure]

/-- A pop: the underflow, or the byte at the top and the increment. -/
theorem popByte_eq (s : State) :
    popByte s =
      if s.sp = 255 then .error (.stackUnderflow 255)
      else .ok (s.mem.read s.sp.toNat, s.setSp (s.sp + 1)) := by
  unfold popByte
  split
  · next h => rw [h]
  · simp [memRead, s.sp.isLt, bind, Except.bind, pure, Except.pure]

theorem pushByte_of_zero (v : Byte) {s : State} (h : s.sp = 0) : pushByte v s = .error (.stackOverflow 0) := by
  rw [pushByte_eq, if_pos h]

theorem pushByte_of_ne_zero (v : Byte) {s : State} (h : s.sp ≠ 0) :
    pushByte v s = .ok ((s.setSp (s.sp - 1)).setMem (s.mem.write (pushAddr s) v)) := by
  rw [pushByte_eq, if_neg h]

theorem popByte_of_top {s : State} (h : s.sp = 255) : popByte s = .error (.stackUnderflow 255) := by
  rw [popByte_eq, if_pos h]

theorem popByte_of_ne_top {s : State} (h : s.sp ≠ 255) :
    popByte s = .ok (s.mem.read s.sp.toNat, s.setSp (s.sp + 1)) := by
  rw [popByte_eq, if_neg h]

/-- An operand register other than x[7] reads the same under both orders. -/
theorem pushOperand_other (order : SpAliasOrder) {i : Fin 8} (s : State) (h : i ≠ 7) :
    pushOperand order i s = s.reg i := by
  cases order with
  | operandsFirst => rfl
  | sequential => exact State.setSp_reg_other s i _ h

/-- What CALL pushes. -/
theorem returnAddress_eq (s : State) :
    returnAddress s =
      if s.pc < 254 then .ok (BitVec.ofNat 8 (s.pc + 2))
      else .error (.outOfBounds .returnAddress (s.pc + 2)) := by
  unfold returnAddress
  split
  · next h => rw [if_neg (by omega)]
  · next h => rw [if_pos (by omega)]

/-- The ALU at ADD's select. -/
theorem alu_add (va vb : Byte) : alu 0xA0 va vb = .ok (lowByte (va.toNat + vb.toNat)) := rfl

/-- The ALU at MULTIPLY's select. -/
theorem alu_multiply (va vb : Byte) : alu 0xA2 va vb = .ok (lowByte (va.toNat * vb.toNat)) := rfl

end Sys2Proof.Machine
end

