-- ==== Sys2Proof/Laws/Fetch.lean ====
section
/-! SUPPORT. What the decoder and the fetch unit can answer, and how a step begins. -/

namespace Sys2Proof

/-- The opcode map is its own inverse on the nine. -/
@[simp] theorem decodeOpcode_byte (o : Opcode) : decodeOpcode o.byte = some o := by cases o <;> rfl

/-- The known opcode set is all of them, and no two share a byte. -/
theorem opcodes_complete_and_distinct :
    (∀ o : Opcode, o ∈ Opcode.all) ∧ (Opcode.all.map Opcode.byte).Nodup :=
  ⟨fun o => by cases o <;> decide, by decide⟩

/-- A byte that selects an opcode is that opcode's byte. -/
theorem byte_of_decodeOpcode {b : Byte} {o : Opcode} (h : decodeOpcode b = some o) : o.byte = b := by
  simpa using List.find?_some h

theorem Opcode.operandCount_le (o : Opcode) : o.operandCount ≤ 2 := by cases o <;> decide

/-- An instruction is assembled from its own opcode and operands. -/
theorem assemble_opcode (o : Opcode) (op1 op2 : Byte) : (assemble o op1 op2).opcode = o := by
  cases o <;> rfl

theorem operands_length (i : Instr) : i.operands.length = i.opcode.operandCount := by
  cases i <;> rfl

namespace Machine

/-- A running machine fetches, decodes and executes, or raises the fetch's error. -/
theorem step_running {s : State} (h : s.state = .running) :
    step s = match fetchInstr s with
      | .ok i => exec i s
      | .error e => raise e s := by
  cases s
  cases h
  rfl

/-- Only a running machine has a next state. -/
theorem running_of_step {s t : State} (h : step s = .next t) : s.state = .running := by
  unfold step at h
  split at h
  · assumption
  · cases h
  · cases h

/-- An operand byte the instruction has, with a cell. -/
theorem fetchOperand_of_has {n k : Nat} {s : State} (h : k ≤ n) (hfit : s.pc + k ≤ 255) :
    fetchOperand n k s = .ok (s.mem.read (s.pc + k)) := by
  unfold fetchOperand
  rw [if_pos h, memRead_of_lt _ _ (by omega)]

/-- An operand byte the instruction has, beyond 255. -/
theorem fetchOperand_of_beyond {n k : Nat} {s : State} (h : k ≤ n) (hmiss : 255 < s.pc + k) :
    fetchOperand n k s = .error (.outOfBounds .operand (s.pc + k)) := by
  unfold fetchOperand
  rw [if_pos h, memRead_of_ge _ _ (by omega)]

/-- An operand byte the instruction does not have is not read. -/
theorem fetchOperand_of_not_has {n k : Nat} (s : State) (h : n < k) : fetchOperand n k s = .ok 0 :=
  if_neg (Nat.not_le.2 h)

/-- The fetch of an instruction whose bytes all have cells. -/
theorem fetchInstr_of_opcode {s : State} {o : Opcode} (h : decodeOpcode (s.mem.read s.pc) = some o)
    (hfit : s.pc + o.operandCount ≤ 255) :
    fetchInstr s = .ok (assemble o (s.mem.read (s.pc + 1)) (s.mem.read (s.pc + 2))) := by
  have h0 : s.pc < 256 := by omega
  unfold fetchInstr fetchOpcode
  simp only [memRead_of_lt .fetch s.mem h0, except_ok_bind, h]
  have hcount : o.operandCount = 0 ∨ o.operandCount = 1 ∨ o.operandCount = 2 := by
    have := o.operandCount_le
    omega
  rcases hcount with hn | hn | hn <;> rw [hn] at hfit ⊢
  · rw [fetchOperand_of_not_has s (by omega), fetchOperand_of_not_has s (by omega)]
    cases o <;> simp_all [Opcode.operandCount, assemble]
  · rw [fetchOperand_of_has (Nat.le_refl 1) hfit, fetchOperand_of_not_has s (by omega)]
    cases o <;> simp_all [Opcode.operandCount, assemble]
  · rw [fetchOperand_of_has (by omega) (by omega), fetchOperand_of_has (Nat.le_refl 2) hfit]
    rfl

/-- The fetch of an instruction with a byte beyond 255: the first such address is 256. -/
theorem fetchInstr_of_missing {s : State} {o : Opcode} (h : decodeOpcode (s.mem.read s.pc) = some o)
    (hpc : s.pc ≤ 255) (hmiss : 255 < s.pc + o.operandCount) :
    fetchInstr s = .error (.outOfBounds .operand 256) := by
  have h0 : s.pc < 256 := by omega
  have hle := o.operandCount_le
  unfold fetchInstr fetchOpcode
  simp only [memRead_of_lt .fetch s.mem h0, except_ok_bind, h]
  by_cases h1 : s.pc = 255
  · rw [fetchOperand_of_beyond (by omega) (by omega), h1]
    rfl
  · have h2 : s.pc = 254 := by omega
    rw [fetchOperand_of_has (by omega) (by omega), except_ok_bind,
      fetchOperand_of_beyond (by omega) (by omega), h2]
    rfl

/-- The fetch of a byte that selects no opcode. -/
theorem fetchInstr_of_illegal {s : State} (h : decodeOpcode (s.mem.read s.pc) = none) (hpc : s.pc ≤ 255) :
    fetchInstr s = .error (.illegalInstruction (s.mem.read s.pc)) := by
  have h0 : s.pc < 256 := by omega
  unfold fetchInstr fetchOpcode
  simp only [memRead_of_lt .fetch s.mem h0, except_ok_bind, h]
  rfl

/-- The fetch beyond the top of memory. -/
theorem fetchInstr_of_beyond {s : State} (hpc : 255 < s.pc) :
    fetchInstr s = .error (.outOfBounds .fetch s.pc) := by
  unfold fetchInstr fetchOpcode
  rw [memRead_of_ge .fetch s.mem (by omega)]
  rfl

/-- Everything a fetch can answer. -/
theorem fetchInstr_cases (s : State) :
    (255 < s.pc ∧ fetchInstr s = .error (.outOfBounds .fetch s.pc)) ∨
    (s.pc ≤ 255 ∧ decodeOpcode (s.mem.read s.pc) = none ∧
      fetchInstr s = .error (.illegalInstruction (s.mem.read s.pc))) ∨
    ∃ o, s.pc ≤ 255 ∧ decodeOpcode (s.mem.read s.pc) = some o ∧
      ((255 < s.pc + o.operandCount ∧ fetchInstr s = .error (.outOfBounds .operand 256)) ∨
       (s.pc + o.operandCount ≤ 255 ∧
        fetchInstr s = .ok (assemble o (s.mem.read (s.pc + 1)) (s.mem.read (s.pc + 2))))) := by
  by_cases hpc : 255 < s.pc
  · exact .inl ⟨hpc, fetchInstr_of_beyond hpc⟩
  · have hle : s.pc ≤ 255 := by omega
    cases hd : decodeOpcode (s.mem.read s.pc) with
    | none => exact .inr (.inl ⟨hle, rfl, fetchInstr_of_illegal hd hle⟩)
    | some o =>
      refine .inr (.inr ⟨o, hle, rfl, ?_⟩)
      by_cases hm : 255 < s.pc + o.operandCount
      · exact .inl ⟨hm, fetchInstr_of_missing hd hle hm⟩
      · exact .inr ⟨by omega, fetchInstr_of_opcode hd (by omega)⟩

/-- Every instruction answers a next state: it completes or it raises an error. -/
theorem exec_next (i : Instr) (s : State) : ∃ t, exec i s = .next t := by
  cases i <;> first | exact settle_next s _ | exact ⟨_, rfl⟩

end Machine

end Sys2Proof
end

