-- ==== Sys2Proof/Laws/PerInstr.lean ====
section
/-! SUPPORT. Facts about every instruction as syntax, one lemma per constructor. -/

namespace Sys2Proof.Laws.EncodingShape

/-- An instruction's bytes begin with an opcode byte that the decoder knows as its opcode, and the two high bits
of that byte count the operand bytes that follow (spec 30_encoding.md R61, R64, R68). -/
def Statement (i : Instr) : Prop :=
  (encode i).head? = some i.opcode.byte ∧ decodeOpcode i.opcode.byte = some i.opcode ∧
    (encode i).length = 1 + (i.opcode.byte >>> 6).toNat

theorem halt : Statement .halt := ⟨rfl, rfl, by simp [encode, Instr.operands, Instr.opcode, Opcode.byte]⟩
theorem loadImmediate (reg imm8 : Byte) : Statement (.loadImmediate reg imm8) := ⟨rfl, rfl, by simp [encode, Instr.operands, Instr.opcode, Opcode.byte]⟩
theorem printReg (reg : Byte) : Statement (.printReg reg) := ⟨rfl, rfl, by simp [encode, Instr.operands, Instr.opcode, Opcode.byte]⟩
theorem multiply (regA regB : Byte) : Statement (.multiply regA regB) := ⟨rfl, rfl, by simp [encode, Instr.operands, Instr.opcode, Opcode.byte]⟩
theorem add (regA regB : Byte) : Statement (.add regA regB) := ⟨rfl, rfl, by simp [encode, Instr.operands, Instr.opcode, Opcode.byte]⟩
theorem push (reg : Byte) : Statement (.push reg) := ⟨rfl, rfl, by simp [encode, Instr.operands, Instr.opcode, Opcode.byte]⟩
theorem pop (reg : Byte) : Statement (.pop reg) := ⟨rfl, rfl, by simp [encode, Instr.operands, Instr.opcode, Opcode.byte]⟩
theorem call (reg : Byte) : Statement (.call reg) := ⟨rfl, rfl, by simp [encode, Instr.operands, Instr.opcode, Opcode.byte]⟩
theorem ret : Statement .ret := ⟨rfl, rfl, by simp [encode, Instr.operands, Instr.opcode, Opcode.byte]⟩

end Sys2Proof.Laws.EncodingShape
end

