-- ==== Sys2Proof/Tests/Slice0.lean ====
section
/-! SUPPORT. Tests of the model on small states, with results taken from spec 95_test_vectors.md (the vector's id stands
in each comment) or worked out from the rule cited, and for every statement with hypotheses a witness that meets
them. -/

namespace Sys2Proof.Tests

open Sys2Proof.Machine

/-- The reset machine with some bytes placed at `a`, `pc = a`, and a stack pointer. -/
def machine (a : Nat) (sp : Byte) (bytes : List Byte) : State :=
  ({ State.reset with mem := placeBytes a bytes State.reset.mem, pc := a }).setSp sp

/-- The next state of an outcome, if it is one. -/
def after : Host.Outcome State Fault Refusal → Option State
  | .next t => some t
  | .fault _ => none
  | .refused _ => none

/-- What one step leaves in the run state. -/
def stateAfter (s : State) : Option RunState := (after (step s)).map State.state

/-! ## WellFormed: an ill-formed term for each check -/

theorem test_illFormed_loadImmediate : (Instr.loadImmediate 8 0).wellFormed = false := by decide
theorem test_illFormed_printReg : (Instr.printReg 255).wellFormed = false := by decide
theorem test_illFormed_multiply_first : (Instr.multiply 8 0).wellFormed = false := by decide
theorem test_illFormed_multiply_second : (Instr.multiply 0 8).wellFormed = false := by decide
theorem test_illFormed_add_first : (Instr.add 9 0).wellFormed = false := by decide
theorem test_illFormed_add_second : (Instr.add 0 9).wellFormed = false := by decide
theorem test_illFormed_push : (Instr.push 8).wellFormed = false := by decide
theorem test_illFormed_pop : (Instr.pop 8).wellFormed = false := by decide
theorem test_illFormed_call : (Instr.call 128).wellFormed = false := by decide
theorem test_wellFormed_all_registers :
    (Instr.multiply 7 7).wellFormed = true ∧ (Instr.loadImmediate 7 255).wellFormed = true := by decide

/-! ## Decoding: words written out from 30_encoding.md R62 and R64 -/

theorem test_decode_halt : decode [0b00000001] = .ok (.halt, []) := rfl
theorem test_decode_loadImmediate :
    decode [0b10000010, 0b00000011, 0b11111111] = .ok (.loadImmediate 3 255, []) := rfl
theorem test_decode_printReg : decode [0b01000111, 0b00000010, 0b00000001] = .ok (.printReg 2, [1]) := rfl
theorem test_decode_multiply :
    decode [0b10100010, 0b00000110, 0b00000001] = .ok (.multiply 6 1, []) := rfl
theorem test_decode_add : decode [0b10100000, 0b00000001, 0b00000110] = .ok (.add 1 6, []) := rfl
theorem test_decode_push : decode [0b01000101, 0b00000111] = .ok (.push 7, []) := rfl
theorem test_decode_pop : decode [0b01000110, 0b11111111] = .ok (.pop 255, []) := rfl
theorem test_decode_call : decode [0b01010000, 0b00000001] = .ok (.call 1, []) := rfl
theorem test_decode_ret : decode [0b00010001, 0b00000000] = .ok (.ret, [0]) := rfl

/-- Illegal bytes that R66 names. -/
theorem test_decode_illegal :
    [0x00, 0xA1, 0xA3, 0x51, 0x12, 0xC0, 0xFF].all
      (fun b : Byte => decide (decodeOpcode b = none)) = true := by decide

/-- A missing operand byte is not taken from anywhere (R68). -/
theorem test_decode_missing : decode [0x82, 3] = .error .missingOperand := rfl

theorem test_decodeTableWord_loadImmediate : decodeTableWord 24 0xFF0382 = some (.loadImmediate 3 255) := by
  decide
theorem test_decodeTableWord_short : decodeTableWord 8 0xA2 = some (.multiply 0 0) := by decide

/-- The bytes of a table word are fetched and run as the next instruction. -/
theorem test_withFetchWord :
    (after (step (State.reset.withFetchWord 24 0xFF0382))).map (fun t => (t.reg 3, t.pc)) =
      some (255, 3) := by decide

/-! ## One step of each instruction -/

/-- H1. -/
theorem test_halt : (after (step (machine 11 0xF4 [0x01]))).map (fun t => (t.pc, t.state)) =
    some (12, .halted) := by decide
/-- H2, F9. -/
theorem test_halt_at_top : (after (step (machine 255 0xF4 [0x01]))).map (fun t => (t.pc, t.state)) =
    some (256, .halted) := by decide

/-- L2. -/
theorem test_loadImmediate_sp : (after (step (machine 0 0xF4 [0x82, 7, 0]))).map
    (fun t => (t.sp, t.pc, t.state)) = some (0, 3, .running) := by decide
/-- L3. -/
theorem test_loadImmediate_bad_register : stateAfter (machine 0 0xF4 [0x82, 8, 5]) =
    some (.faulted ⟨.outOfBounds .register 8, 0⟩) := by decide

/-- PR1. -/
theorem test_printReg : (after (step ((machine 9 0xF4 [0x47, 0]).setReg 0 17))).map
    (fun t => (t.out, t.pc)) = some ([17], 11) := by decide
/-- PR5: nothing is emitted. -/
theorem test_printReg_bad_register : (after (step ((machine 0 0xF4 [0x47, 8]).emit 1))).map
    (fun t => (t.out, t.state)) = some ([1], .faulted ⟨.outOfBounds .register 8, 0⟩) := by decide

/-- A1. -/
theorem test_add_wraps : (after (step (((machine 0 0xF4 [0xA0, 0, 1]).setReg 0 200).setReg 1 100))).map
    (fun t => (t.reg 0, t.reg 1, t.pc)) = some (44, 100, 3) := by decide
/-- A11: the first register is checked first. -/
theorem test_add_bad_registers : stateAfter (machine 0 0xF4 [0xA0, 9, 8]) =
    some (.faulted ⟨.outOfBounds .register 9, 0⟩) := by decide

/-- M5. -/
theorem test_multiply_wraps :
    (after (step (((machine 0 0xF4 [0xA2, 0, 1]).setReg 0 200).setReg 1 100))).map
      (fun t => (t.reg 0, t.reg 1, t.pc)) = some (32, 100, 3) := by decide
/-- M9: the source is also the destination. -/
theorem test_multiply_square : (after (step ((machine 0 0xF4 [0xA2, 1, 1]).setReg 1 17))).map
    (fun t => t.reg 1) = some 33 := by decide

/-- S4. -/
theorem test_push_sp : (after (step (machine 0 0xF4 [0x45, 7]))).map
    (fun t => (t.sp, t.mem.read 0xF3, t.pc)) = some (0xF3, 0xF4, 2) := by decide
/-- S5: the register check comes before the overflow. -/
theorem test_push_priority : stateAfter (machine 0 0 [0x45, 9]) =
    some (.faulted ⟨.outOfBounds .register 9, 0⟩) := by decide

/-- PO1. -/
theorem test_pop : (after (step ((machine 0 0xF3 [0x46, 2]).setMem
      ((machine 0 0xF3 [0x46, 2]).mem.write 0xF3 42)))).map
    (fun t => (t.reg 2, t.sp, t.mem.read 0xF3, t.pc)) = some (42, 0xF4, 42, 2) := by decide
/-- PO3. -/
theorem test_pop_underflow : stateAfter (machine 0 0xFF [0x46, 0]) =
    some (.faulted ⟨.stackUnderflow 255, 0⟩) := by decide

/-- CA1. -/
theorem test_call : (after (step ((machine 6 0xF4 [0x50, 1]).setReg 1 11))).map
    (fun t => (t.sp, t.mem.read 0xF3, t.pc)) = some (0xF3, 8, 11) := by decide
/-- CA7: the return address is checked before the overflow. -/
theorem test_call_at_254 : stateAfter (machine 254 0 [0x50, 1]) =
    some (.faulted ⟨.outOfBounds .returnAddress 256, 254⟩) := by decide

/-- RE4, F10. -/
theorem test_return_at_top : (after (step ((machine 255 0xF3 [0x11]).setMem
      ((machine 255 0xF3 [0x11]).mem.write 0xF3 0x20)))).map
    (fun t => (t.pc, t.sp)) = some (0x20, 0xF4) := by decide
/-- RE2. -/
theorem test_return_underflow : stateAfter (machine 0 0xFF [0x11]) =
    some (.faulted ⟨.stackUnderflow 255, 0⟩) := by decide

/-! ## Fetch, the alternative parameter values, the host's view -/

/-- F1. -/
theorem test_fetch_beyond : stateAfter (machine 256 0xF4 []) =
    some (.faulted ⟨.outOfBounds .fetch 256, 256⟩) := by decide
/-- F7. -/
theorem test_fetch_operand_beyond : stateAfter (machine 254 0xF4 [0x82, 0]) =
    some (.faulted ⟨.outOfBounds .operand 256, 254⟩) := by decide
/-- F11: an illegal byte at the top is not an operand error. -/
theorem test_fetch_illegal_at_top : stateAfter (machine 255 0xF4 [0]) =
    some (.faulted ⟨.illegalInstruction 0, 255⟩) := by decide

/-- S4, SEQUENTIAL. -/
theorem test_push_sp_sequential : (after (execPushWith .sequential 7 (machine 0 0xF4 []))).map
    (fun t => t.mem.read 0xF3) = some 0xF3 := by decide
/-- PO5, SEQUENTIAL. -/
theorem test_pop_sp_sequential : (after (execPopWith .sequential 7 ((machine 0 0xFF []).setMem
      (Memory.write [] 0xFF 0x10)))).map (fun t => (t.sp, t.state)) = some (0x11, .running) := by decide
/-- CA5, SEQUENTIAL. -/
theorem test_call_sp_sequential : (after (execCallWith .sequential 7 (machine 0x20 0xF4 []))).map
    (fun t => (t.mem.read 0xF3, t.pc)) = some (0x22, 0xF3) := by decide

/-- PR3: the line is 255, never -1. -/
theorem test_renderLine : renderLine 255 = ['2', '5', '5', Char.ofNat 10] := by decide
/-- R71's own spelling. -/
theorem test_assembly : assembly (.loadImmediate 0 8) = "LOAD_IMMEDIATE r0,8".toList := by decide
/-- R56: 256 bytes fit. -/
theorem test_load_order : (State.reset.load [0x82, 7]).map (fun t => (t.mem.read 0, t.mem.read 1, t.mem.read 2)) =
    some (0x82, 7, 0) := by decide

/-! ## Witnesses: states and operands that meet the hypotheses of each statement -/

theorem machine_inv (a : Nat) (sp : Byte) (bytes : List Byte) (h : a ≤ 256) : MachineInv (machine a sp bytes) :=
  ⟨placeBytes_wf bytes a reset_mem_wf, h, trivial⟩

/-- A one-step run that halts. -/
theorem halting_step : step (machine 0 0xF4 [0x01]) =
    .next ((machine 0 0xF4 [0x01]).setPc 1 |>.setRunState .halted) := rfl

/-- A step that faults, at the highest opcode address. -/
theorem faulting_step : step (machine 255 0xF4 [0]) =
    raise (.illegalInstruction 0) (machine 255 0xF4 [0]) := rfl

theorem witness_ResetGivesEveryStateItsValue : 255 ≤ 255 ∧ (6 : Fin 8) ≠ 7 := by decide

theorem witness_StepKeepsInvariant : ∃ s t, MachineInv s ∧ step s = .next t :=
  ⟨_, _, machine_inv 0 0xF4 [0x01] (by decide), halting_step⟩

theorem witness_BootedRunsMeetInvariant :
    ∃ img s t, boot img = some s ∧ Reaches s t ∧ t.state = .halted :=
  ⟨[0x01], _, _, rfl, .tail .refl rfl, rfl⟩

theorem witness_LoadWritesImageOrIsRefused :
    (List.replicate 256 (7 : Byte)).length ≤ 256 ∧ 256 < (List.replicate 257 (7 : Byte)).length := by
  rw [List.length_replicate, List.length_replicate]
  decide

theorem witness_TerminalStatesHaveNoStep :
    (State.reset.setRunState .halted).state = .halted ∧
    (State.reset.setRunState (.faulted ⟨.stackOverflow 0, 0⟩)).state = .faulted ⟨.stackOverflow 0, 0⟩ :=
  ⟨rfl, rfl⟩

/-- Both returning and non-returning runs exist: PUSH r0 and RETURN, pushing 0, come back to the same state. -/
theorem witness_RunEndsInExactlyOneWay :
    RunReturns (machine 0 0xF4 [0x01]) .normal ((machine 0 0xF4 [0x01]).setPc 1 |>.setRunState .halted) ∧
    RunsForever (machine 0 0xF4 [0x45, 0, 0x11]) := by
  refine ⟨⟨.tail .refl halting_step, rfl⟩, ?_⟩
  have h : ∀ t, Reaches (machine 0 0xF4 [0x45, 0, 0x11]) t →
      t = machine 0 0xF4 [0x45, 0, 0x11] ∨ t = (machine 0 0xF3 [0x45, 0, 0x11]).setPc 2 := by
    intro t ht
    induction ht with
    | refl => exact .inl rfl
    | tail _ hstep ih =>
      rcases ih with rfl | rfl
      · exact .inr (Host.Outcome.next.inj hstep).symm
      · exact .inl (Host.Outcome.next.inj hstep).symm
  intro t ht
  rcases h t ht with rfl | rfl <;> rfl

theorem witness_OtherOpcodeBytesAreIllegal :
    (machine 255 0xF4 [0]).state = .running ∧ (machine 255 0xF4 [0]).pc ≤ 255 ∧
    (machine 255 0xF4 [0]).mem.read 255 ∉
      [0x01, 0x82, 0x47, 0xA2, 0xA0, 0x45, 0x46, 0x50, 0x11] := by decide

/-- The last address at which a three-byte and a one-byte instruction fit. -/
theorem witness_StepRunsDecodedInstruction :
    (machine 253 0xF4 [0x82, 1, 9]).state = .running ∧
    decode (codeBytes (machine 253 0xF4 [0x82, 1, 9])) = .ok (.loadImmediate 1 9, []) ∧
    (machine 255 0xF4 [0x01]).state = .running ∧
    decode (codeBytes (machine 255 0xF4 [0x01])) = .ok (.halt, []) :=
  ⟨rfl, rfl, rfl, rfl⟩

theorem witness_StepRaisesWhereNothingDecodes :
    (∀ a sp bytes, (machine a sp bytes).state = .running) ∧
    decode (codeBytes (machine 256 0xF4 [])) = .error .noOpcode ∧
    decode (codeBytes (machine 255 0xF4 [0])) = .error (.illegalOpcode 0) ∧
    decode (codeBytes (machine 254 0xF4 [0x82, 1])) = .error .missingOperand ∧
    decode (codeBytes (machine 255 0xF4 [0x45])) = .error .missingOperand :=
  ⟨fun _ _ _ => rfl, rfl, rfl, rfl, rfl⟩

theorem witness_FaultingStepsArePrecise :
    ∃ s t e, step s = .next t ∧ t.state = .faulted e :=
  ⟨_, _, _, faulting_step, rfl⟩

theorem witness_NoStepRaisesUnsupportedOperation :
    ∃ s t e, step s = .next t ∧ t.state = .faulted e :=
  ⟨_, _, _, faulting_step, rfl⟩

theorem witness_FirstErrorConditionIsReported :
    (machine 254 0 [0x50, 1]).state = .running ∧ (machine 253 1 [0x50, 1]).state = .running ∧
    firstError (machine 254 0 [0x50, 1]) = some (.outOfBounds .returnAddress 256) ∧
    firstError (machine 253 1 [0x50, 1]) = none := by decide

theorem witness_RegisterIndexIsChecked :
    (Instr.add 7 8).wellFormed = false ∧ (Instr.add 7 7).wellFormed = true ∧
    State.reset.state = .running := by decide

theorem witness_MemoryAccessInRangeOrRaises : 255 ≤ 255 ∧ 256 > 255 := by decide

theorem witness_ControllerServesRequests : 255 ≤ 255 ∧ 256 > 255 := by decide

theorem witness_AluOperationTable : (0xA1 : Byte) ≠ 0xA0 ∧ (0xA1 : Byte) ≠ 0xA2 := by decide

theorem witness_StackUnitPrimitives :
    (machine 0 0 []).reg 7 = 0 ∧ (machine 0 1 []).reg 7 ≠ 0 ∧
    (machine 0 255 []).reg 7 = 255 ∧ (machine 0 254 []).reg 7 ≠ 255 := by decide

/-- For each instruction: the highest register operand that is valid and the lowest that is not, and the addresses
at which an operand byte is missing. -/
theorem witness_LoadImmediateWritesItsRegister :
    (7 : Byte).toNat < 8 ∧ 7 < (8 : Byte).toNat ∧
    (machine 254 0xF4 [0x82]).state = .running ∧ (machine 254 0xF4 [0x82]).mem.read 254 = 0x82 ∧
    (machine 255 0xF4 [0x82]).mem.read 255 = 0x82 := by decide

theorem witness_PrintRegAppendsItsRegister :
    (7 : Byte).toNat < 8 ∧ 7 < (8 : Byte).toNat ∧
    (machine 255 0xF4 [0x47]).state = .running ∧ (machine 255 0xF4 [0x47]).mem.read 255 = 0x47 := by decide

theorem witness_MultiplyWritesProductMod256 :
    (7 : Byte).toNat < 8 ∧ 7 < (8 : Byte).toNat ∧
    (machine 254 0xF4 [0xA2]).state = .running ∧ (machine 254 0xF4 [0xA2]).mem.read 254 = 0xA2 ∧
    (machine 255 0xF4 [0xA2]).mem.read 255 = 0xA2 := by decide

theorem witness_AddWritesSumMod256 :
    (7 : Byte).toNat < 8 ∧ 7 < (8 : Byte).toNat ∧
    (machine 254 0xF4 [0xA0]).state = .running ∧ (machine 254 0xF4 [0xA0]).mem.read 254 = 0xA0 ∧
    (machine 255 0xF4 [0xA0]).mem.read 255 = 0xA0 := by decide

theorem witness_PushStoresItsRegister :
    (7 : Byte).toNat < 8 ∧ 7 < (8 : Byte).toNat ∧
    (machine 0 1 []).reg 7 ≠ 0 ∧ (machine 0 0 []).reg 7 = 0 ∧
    (machine 255 0xF4 [0x45]).state = .running ∧ (machine 255 0xF4 [0x45]).mem.read 255 = 0x45 := by decide

theorem witness_PopLoadsItsRegister :
    (7 : Byte).toNat < 8 ∧ 7 < (8 : Byte).toNat ∧
    (machine 0 254 []).reg 7 ≠ 255 ∧ (machine 0 255 []).reg 7 = 255 ∧
    (machine 255 0xF4 [0x46]).state = .running ∧ (machine 255 0xF4 [0x46]).mem.read 255 = 0x46 := by decide

theorem witness_CallPushesReturnAddressAndJumps :
    (7 : Byte).toNat < 8 ∧ 7 < (8 : Byte).toNat ∧
    (machine 253 1 []).pc ≤ 253 ∧ (machine 253 1 []).reg 7 ≠ 0 ∧ (machine 253 0 []).reg 7 = 0 ∧
    253 < (machine 254 0 []).pc ∧
    (machine 255 0xF4 [0x50]).state = .running ∧ (machine 255 0xF4 [0x50]).mem.read 255 = 0x50 := by decide

theorem witness_ReturnPopsProgramCounter :
    (machine 0 254 []).reg 7 ≠ 255 ∧ (machine 0 255 []).reg 7 = 255 ∧
    (machine 255 0xF4 [0x11]).state = .running ∧ (machine 255 0xF4 [0x11]).mem.read 255 = 0x11 := by decide

theorem witness_SpAliasOrderResults :
    (∃ t u, execCallWith .operandsFirst 7 (machine 253 1 []) = .next t ∧
      execCallWith .sequential 7 (machine 253 1 []) = .next u) ∧
    (machine 253 1 []).pc ≤ 253 ∧ (machine 253 1 []).reg 7 ≠ 0 ∧ (machine 0 254 []).reg 7 ≠ 255 ∧
    (machine 0 254 []).mem.read ((machine 0 254 []).reg 7).toNat ≠ 255 ∧
    (machine 255 255 [255]).mem.read ((machine 255 255 [255]).reg 7).toNat = 255 ∧ (6 : Byte) ≠ 7 :=
  ⟨⟨_, _, rfl, rfl⟩, by decide⟩

theorem witness_RegisterWritersFrame :
    (∃ t, exec (.loadImmediate 7 1) State.reset = .next t) ∧
    (∃ t, exec (.multiply 8 1) State.reset = .next t) ∧ (∃ t, exec (.add 0 0) State.reset = .next t) :=
  ⟨⟨_, rfl⟩, ⟨_, rfl⟩, ⟨_, rfl⟩⟩

theorem witness_HaltAndPrintFrame :
    (∃ t, exec .halt State.reset = .next t) ∧ (∃ t, exec (.printReg 7) State.reset = .next t) :=
  ⟨⟨_, rfl⟩, ⟨_, rfl⟩⟩

theorem witness_PopAndReturnFrame :
    (∃ t, exec (.pop 7) (machine 0 254 []) = .next t) ∧ (∃ t, exec .ret (machine 0 255 []) = .next t) :=
  ⟨⟨_, rfl⟩, ⟨_, rfl⟩⟩

theorem witness_StackStoresFrame :
    (∃ t, exec (.push 7) (machine 0 1 []) = .next t) ∧ (∃ t, exec (.call 0) (machine 0 0 []) = .next t) ∧
    (machine 0 0 []).reg 7 = 0 :=
  ⟨⟨_, rfl⟩, ⟨_, rfl⟩, rfl⟩

theorem witness_EveryInstructionSetsProgramCounter :
    (∃ t, exec (.printReg 0) (machine 254 0 []) = .next t ∧ isFaulted t = false) ∧
    (∃ t, exec (.call 7) (machine 253 1 []) = .next t ∧ isFaulted t = false) ∧
    (∃ t, exec .ret (machine 0 254 []) = .next t ∧ isFaulted t = false) :=
  ⟨⟨_, rfl, rfl⟩, ⟨_, rfl, rfl⟩, ⟨_, rfl, rfl⟩⟩

theorem witness_OnlyHaltEntersHalted : ∃ s t, step s = .next t ∧ t.state = .halted :=
  ⟨_, _, halting_step, rfl⟩

theorem witness_OnlyPrintRegEmits : ∃ s t, step s = .next t ∧ t.out ≠ s.out :=
  ⟨machine 254 0xF4 [0x47, 7], _, rfl, by decide⟩

theorem witness_OnlyPushAndCallChangeMemory :
    ∃ s t a, step s = .next t ∧ t.mem.read a ≠ s.mem.read a :=
  ⟨machine 0 1 [0x45, 0], _, 0, rfl, by decide⟩

theorem witness_PushPopRoundTrip :
    (7 : Byte).toNat < 8 ∧ (6 : Byte).toNat < 8 ∧ (6 : Byte) ≠ 7 ∧ (machine 0 1 []).reg 7 ≠ 0 := by decide

theorem witness_CallReturnRoundTrip :
    (7 : Byte).toNat < 8 ∧ (machine 253 1 []).pc ≤ 253 ∧ (machine 253 1 []).reg 7 ≠ 0 ∧
    ∃ t u : State, exec (.call 7) (machine 253 1 []) = .next t ∧ u.reg 7 = t.reg 7 ∧
      u.mem.read (t.reg 7).toNat = t.mem.read (t.reg 7).toNat :=
  ⟨by decide, by decide, by decide, _, _, rfl, rfl, rfl⟩

/-- A PUSH whose byte is the next opcode, a PUSH whose byte is the next instruction's operand, and a CALL whose
return address is the next opcode. -/
theorem witness_NextFetchSeesStackStore :
    (∃ t, exec (.push 0) (machine 0 3 []) = .next t ∧ isFaulted t = false ∧ t.pc = pushAddr (machine 0 3 [])) ∧
    (∃ t, exec (.push 0) (machine 0 4 []) = .next t ∧ isFaulted t = false ∧
      t.pc + 1 = pushAddr (machine 0 4 []) ∧ 1 ≤ 1) ∧
    (∃ t, exec (.call 0) (machine 0 1 []) = .next t ∧ isFaulted t = false ∧ t.pc = pushAddr (machine 0 1 [])) :=
  ⟨⟨_, rfl, rfl, rfl⟩, ⟨_, rfl, rfl, rfl, Nat.le_refl 1⟩, ⟨_, rfl, rfl, rfl⟩⟩

theorem witness_TraceShowsAbsentBytesBeyond255 :
    (traceLine (machine 255 0xF4 [0x01])).bytes = [some 1, none, none] := by decide

end Sys2Proof.Tests
end

section
/-! PROOFS. What each instruction does once its register operands are checked, and what a failed check does
(10_state.md R23). The family of the state: O21. -/

namespace Sys2Proof.Machine

variable {s : State} {reg regA regB : Byte} {i a b : Fin 8}

/-! ## The register check at the head of an instruction -/

theorem toNat_lt_of_isRegIndex {r : Byte} (h : isRegIndex r = true) : r.toNat < 8 := of_decide_eq_true h

theorem lt_toNat_of_isRegIndex_false {r : Byte} (h : isRegIndex r = false) : 7 < r.toNat :=
  Nat.not_lt.1 (of_decide_eq_false h)

/-- An instruction that begins with a register check goes on with the register the check answers. -/
theorem settle_checkReg_ok (h : checkReg reg = .ok i) (rest : Fin 8 → Except Error State) :
    settle s (checkReg reg >>= rest) = settle s (rest i) := by
  rw [h, except_ok_bind]

/-- An instruction that begins with a register check ends there when the operand is above 7. -/
theorem settle_checkReg_of_gt (h : 7 < reg.toNat) (rest : Fin 8 → Except Error State) :
    settle s (checkReg reg >>= rest) = raise (.outOfBounds .register reg.toNat) s := by
  rw [checkReg_of_gt h, except_error_bind, settle_error]

/-- The second register of an arithmetic instruction is checked after the first. -/
theorem aluInstr_of_gt_second (select : Byte) (hA : checkReg regA = .ok a) (hB : 7 < regB.toNat) :
    aluInstr select regA regB s = .error (.outOfBounds .register regB.toNat) := by
  unfold aluInstr
  rw [hA, except_ok_bind, checkReg_of_gt hB, except_error_bind]

/-! ## Each instruction whose register operands name registers -/

theorem exec_halt (s : State) : exec .halt s = .next ((s.setPc (s.pc + 1)).setRunState .halted) := rfl

theorem exec_loadImmediate (imm8 : Byte) (h : checkReg reg = .ok i) :
    exec (.loadImmediate reg imm8) s = .next ((s.setReg i imm8).setPc (s.pc + 3)) :=
  settle_checkReg_ok h _

theorem exec_printReg (h : checkReg reg = .ok i) :
    exec (.printReg reg) s = .next ((s.emit (s.reg i)).setPc (s.pc + 2)) :=
  settle_checkReg_ok h _

/-- The shape ADD and MULTIPLY share: the ALU's result goes to the first register. -/
theorem aluInstr_ok {select res : Byte} (hA : checkReg regA = .ok a) (hB : checkReg regB = .ok b)
    (hres : alu select (s.reg a) (s.reg b) = .ok res) :
    aluInstr select regA regB s = .ok ((s.setReg a res).setPc (s.pc + 3)) := by
  unfold aluInstr
  rw [hA, except_ok_bind, hB, except_ok_bind, hres, except_ok_bind, except_pure]

theorem exec_multiply (hA : checkReg regA = .ok a) (hB : checkReg regB = .ok b) :
    exec (.multiply regA regB) s =
      .next ((s.setReg a (lowByte ((s.reg a).toNat * (s.reg b).toNat))).setPc (s.pc + 3)) :=
  congrArg (settle s) (aluInstr_ok hA hB (alu_multiply _ _))

theorem exec_add (hA : checkReg regA = .ok a) (hB : checkReg regB = .ok b) :
    exec (.add regA regB) s =
      .next ((s.setReg a (lowByte ((s.reg a).toNat + (s.reg b).toNat))).setPc (s.pc + 3)) :=
  congrArg (settle s) (aluInstr_ok hA hB (alu_add _ _))

/-- PUSH: the overflow, or the store of the old register value below the old top. -/
theorem exec_push (h : checkReg reg = .ok i) :
    exec (.push reg) s =
      if s.sp = 0 then raise (.stackOverflow 0) s
      else .next (((s.setSp (s.sp - 1)).setMem (s.mem.write (pushAddr s) (s.reg i))).setPc (s.pc + 2)) := by
  refine (settle_checkReg_ok h _).trans ?_
  rw [pushByte_eq]
  split <;> rfl

/-- POP: the underflow, or the old top into the register, written over the increment. -/
theorem exec_pop (h : checkReg reg = .ok i) :
    exec (.pop reg) s =
      if s.sp = 255 then raise (.stackUnderflow 255) s
      else .next (((s.setSp (s.sp + 1)).setReg i (s.mem.read s.sp.toNat)).setPc (s.pc + 2)) := by
  refine (settle_checkReg_ok h _).trans ?_
  simp only [popOperandsFirst, popByte_eq]
  split <;> rfl

/-- CALL: a return address no cell can hold, the overflow, or the store of the return address and the jump to the
old register value. -/
theorem exec_call (h : checkReg reg = .ok i) :
    exec (.call reg) s =
      if s.pc < 254 then
        if s.sp = 0 then raise (.stackOverflow 0) s
        else .next (((s.setSp (s.sp - 1)).setMem
          (s.mem.write (pushAddr s) (BitVec.ofNat 8 (s.pc + 2)))).setPc (s.reg i).toNat)
      else raise (.outOfBounds .returnAddress (s.pc + 2)) s := by
  refine (settle_checkReg_ok h _).trans ?_
  rw [returnAddress_eq]
  split
  · rw [except_ok_bind, pushByte_eq]
    split <;> rfl
  · rfl

/-- RETURN: the underflow, or the jump to the old top. -/
theorem exec_ret (s : State) :
    exec .ret s =
      if s.sp = 255 then raise (.stackUnderflow 255) s
      else .next ((s.setSp (s.sp + 1)).setPc (s.mem.read s.sp.toNat).toNat) := by
  change settle s (popByte s >>= _) = _
  rw [popByte_eq]
  split <;> rfl

/-! ## An ill-formed instruction fails its register check -/

/-- The two arithmetic instructions report the first operand that is above 7. -/
theorem settle_aluInstr_illFormed (select : Byte) (h : (isRegIndex regA && isRegIndex regB) = false) :
    ∃ r ∈ [regA, regB], 7 < r.toNat ∧
      settle s (aluInstr select regA regB s) = raise (.outOfBounds .register r.toNat) s := by
  cases hA : isRegIndex regA with
  | false =>
    have hgt := lt_toNat_of_isRegIndex_false hA
    exact ⟨regA, by simp, hgt, settle_checkReg_of_gt hgt _⟩
  | true =>
    rw [hA, Bool.true_and] at h
    have hgt := lt_toNat_of_isRegIndex_false h
    have hokA := checkReg_of_lt (toNat_lt_of_isRegIndex hA)
    exact ⟨regB, by simp, hgt, congrArg (settle s) (aluInstr_of_gt_second select hokA hgt)⟩

/-- R23, an index of 8 or more: the instruction raises OutOfBounds(REGISTER) of that operand byte. -/
theorem exec_illFormed {ins : Instr} (s : State) (h : ins.wellFormed = false) :
    ∃ r ∈ ins.operands, 7 < r.toNat ∧ exec ins s = raise (.outOfBounds .register r.toNat) s := by
  cases ins with
  | halt => cases h
  | ret => cases h
  | multiply regA regB => exact settle_aluInstr_illFormed 0xA2 h
  | add regA regB => exact settle_aluInstr_illFormed 0xA0 h
  | loadImmediate reg imm8 =>
    have hgt := lt_toNat_of_isRegIndex_false h
    exact ⟨reg, List.mem_cons_self, hgt, settle_checkReg_of_gt hgt _⟩
  | printReg reg | push reg | pop reg | call reg =>
    have hgt := lt_toNat_of_isRegIndex_false h
    exact ⟨reg, List.mem_cons_self, hgt, settle_checkReg_of_gt hgt _⟩

/-! ## A well-formed instruction passes its register checks -/

/-- The outcome is a next state that is not FAULTED with OutOfBounds(REGISTER). -/
def NextWithoutRegisterFault (o : Host.Outcome State Fault Refusal) : Prop :=
  ∃ t, o = .next t ∧ ∀ e, t.state = .faulted e → ∀ n, e.error ≠ .outOfBounds .register n

theorem next_withoutRegisterFault {t : State} (h : ∀ e, t.state ≠ .faulted e) :
    NextWithoutRegisterFault (.next t) :=
  ⟨t, rfl, fun e he => absurd he (h e)⟩

/-- An instruction that completes in the run state it began in, RUNNING, has no fault. -/
theorem next_running_withoutRegisterFault {t : State} (h : t.state = .running) :
    NextWithoutRegisterFault (.next t) :=
  next_withoutRegisterFault fun e he => by rw [h] at he; cases he

theorem raise_withoutRegisterFault {err : Error} (s : State) (h : ∀ n, err ≠ .outOfBounds .register n) :
    NextWithoutRegisterFault (raise err s) :=
  ⟨_, rfl, fun e he => by cases he; exact h⟩

/-- R23, indices 0 to 7 are valid: what is left to fail is the stack or the return address. -/
theorem exec_wellFormed {ins : Instr} (h : ins.wellFormed = true) (hrun : s.state = .running) :
    NextWithoutRegisterFault (exec ins s) := by
  have hreg {r : Byte} (hr : isRegIndex r = true) := checkReg_of_lt (toNat_lt_of_isRegIndex hr)
  cases ins with
  | halt => exact next_withoutRegisterFault nofun
  | loadImmediate reg imm8 =>
    rw [exec_loadImmediate imm8 (hreg h)]
    exact next_running_withoutRegisterFault hrun
  | printReg reg =>
    rw [exec_printReg (hreg h)]
    exact next_running_withoutRegisterFault hrun
  | multiply regA regB =>
    obtain ⟨hA, hB⟩ := Bool.and_eq_true_iff.1 h
    rw [exec_multiply (hreg hA) (hreg hB)]
    exact next_running_withoutRegisterFault hrun
  | add regA regB =>
    obtain ⟨hA, hB⟩ := Bool.and_eq_true_iff.1 h
    rw [exec_add (hreg hA) (hreg hB)]
    exact next_running_withoutRegisterFault hrun
  | push reg =>
    rw [exec_push (hreg h)]
    split
    · exact raise_withoutRegisterFault s nofun
    · exact next_running_withoutRegisterFault hrun
  | pop reg =>
    rw [exec_pop (hreg h)]
    split
    · exact raise_withoutRegisterFault s nofun
    · exact next_running_withoutRegisterFault hrun
  | call reg =>
    rw [exec_call (hreg h)]
    split
    · split
      · exact raise_withoutRegisterFault s nofun
      · exact next_running_withoutRegisterFault hrun
    · exact raise_withoutRegisterFault s nofun
  | ret =>
    rw [exec_ret]
    split
    · exact raise_withoutRegisterFault s nofun
    · exact next_running_withoutRegisterFault hrun

/-- Settles O21: an ill-formed instruction stops at its register check, and a well-formed one passes it and can
fail only for the stack or the return address. -/
theorem registerIndexIsChecked : Obligations.RegisterIndexIsChecked :=
  fun _ s => ⟨exec_illFormed s, exec_wellFormed⟩

end Sys2Proof.Machine
end

section
/-! PROOFS. The two primitives of the memory access controller (20_memory.md R41, R42): O22. -/

namespace Sys2Proof.Machine

/-- An in-range write through the controller. -/
theorem memWrite_of_lt (kind : BoundsKind) {addr : Nat} (v : Byte) (m : Memory) (h : addr < 256) :
    memWrite kind addr v m = .ok (m.write addr v) := memWrite_eq_ok.2 ⟨h, rfl⟩

/-- A write through the controller beyond 255. -/
theorem memWrite_of_ge (kind : BoundsKind) {addr : Nat} (v : Byte) (m : Memory) (h : 256 ≤ addr) :
    memWrite kind addr v m = .error (.outOfBounds kind addr) := if_neg (Nat.not_lt.2 h)

/-- Settles O22: each primitive has one equation up to address 255 and one beyond it, and a written memory reads as
the value at its address and as before at every other. -/
theorem memoryAccessInRangeOrRaises : Obligations.MemoryAccessInRangeOrRaises := by
  intro kind addr v m
  refine ⟨fun h => ?readInRange, fun h => ?readBeyond, fun h => ?writeInRange, fun h => ?writeBeyond⟩
  case readInRange => exact memRead_of_lt kind m (Nat.lt_succ_of_le h)
  case readBeyond => exact memRead_of_ge kind m h
  case writeInRange =>
    exact ⟨m.write addr v, memWrite_of_lt kind v m (Nat.lt_succ_of_le h), Memory.read_write_same m addr v,
      fun _ hne => Memory.read_write_other m v hne⟩
  case writeBeyond => exact memWrite_of_ge kind v m h

end Sys2Proof.Machine
end

section
/-! PROOFS. The opcode map as equality with one of the nine bytes (30_encoding.md R61, R64 to R66). The family of
the encoding: O13, O14. -/

namespace Sys2Proof

/-! ## The opcode map -/

/-- R65: the whole byte is compared, so a byte selects an opcode exactly when it is that opcode's byte. -/
theorem decodeOpcode_eq_some {b : Byte} {o : Opcode} : decodeOpcode b = some o ↔ o.byte = b :=
  ⟨byte_of_decodeOpcode, fun h => h ▸ decodeOpcode_byte o⟩

/-- R66: a byte that is no opcode's byte selects none. -/
theorem decodeOpcode_eq_none {b : Byte} : decodeOpcode b = none ↔ b ∉ Opcode.all.map Opcode.byte := by
  simp [decodeOpcode]

/-- R64's table, read off the opcodes, pairs an opcode with its own byte only. -/
theorem mem_opcodeTable {b : Byte} {o : Opcode} :
    (b, o) ∈ Opcode.all.map (fun o => (o.byte, o)) ↔ o.byte = b := by
  rw [List.mem_map]
  constructor
  · rintro ⟨o', -, h⟩
    cases h
    rfl
  · rintro rfl
    exact ⟨o, opcodes_complete_and_distinct.1 o, rfl⟩

/-- R61: bits 7..6 of an opcode's byte are its operand count. -/
theorem operandCount_eq_highBits (o : Opcode) : o.operandCount = (o.byte.extractLsb' 6 2).toNat := by
  cases o <;> rfl

/-- Settles O13: the obligation's nine pairs are the opcodes with their own bytes, so both sides say that the byte
is the opcode's. -/
theorem opcodeByteSelectsByEquality : Obligations.OpcodeByteSelectsByEquality :=
  ⟨fun _ _ => decodeOpcode_eq_some.trans mem_opcodeTable.symm,
    fun o => ⟨operandCount_eq_highBits o, o.operandCount_le, rfl⟩⟩

/-! ## The illegal opcode bytes -/

/-- The byte values that select an opcode are the nine opcodes' bytes, each once. -/
theorem legalOpcodeBytes_perm :
    ((List.range 256).filter fun n => (decodeOpcode (BitVec.ofNat 8 n)).isSome).Perm
      (Opcode.all.map fun o => o.byte.toNat) := by
  refine (List.perm_ext_iff_of_nodup (List.nodup_range.filter _) (by decide)).2 fun n => ?_
  simp only [List.mem_filter, List.mem_range, List.mem_map, Option.isSome_iff_exists, decodeOpcode_eq_some]
  constructor
  · rintro ⟨hn, o, ho⟩
    exact ⟨o, opcodes_complete_and_distinct.1 o, by rw [ho, BitVec.toNat_ofNat, Nat.mod_eq_of_lt hn]⟩
  · rintro ⟨o, -, rfl⟩
    exact ⟨o.byte.isLt, o, by rw [BitVec.ofNat_toNat, BitVec.setWidth_eq]⟩

/-- R66's number: of the 256 byte values, all but the nine. -/
theorem illegalOpcodeBytes_count :
    ((List.range 256).filter fun n => (decodeOpcode (BitVec.ofNat 8 n)).isNone).length = 247 := by
  have hsplit := (List.range 256).length_eq_length_filter_add
    fun n => (decodeOpcode (BitVec.ofNat 8 n)).isSome
  have hlegal := legalOpcodeBytes_perm.length_eq
  simp only [List.length_map, List.length_range, Option.not_isSome] at hsplit hlegal
  have hnine : Opcode.all.length = 9 := rfl
  omega

namespace Machine

/-- An illegal opcode byte in memory ends the step, before any operand byte is looked at. -/
theorem step_of_illegalOpcode {s : State} (hrun : s.state = .running) (hpc : s.pc ≤ 255)
    (hnone : decodeOpcode (s.mem.read s.pc) = none) :
    step s = raise (.illegalInstruction (s.mem.read s.pc)) s := by
  rw [step_running hrun, fetchInstr_of_illegal hnone hpc]

/-- Settles O14: the count over all byte values, and for each byte outside the nine the fetch's error. -/
theorem otherOpcodeBytesAreIllegal : Obligations.OtherOpcodeBytesAreIllegal :=
  ⟨illegalOpcodeBytes_count, fun _ hrun hpc hother =>
    step_of_illegalOpcode hrun hpc (decodeOpcode_eq_none.2 hother)⟩

end Machine

end Sys2Proof
end

section
/-! PROOFS. The missing operand byte at the end of memory, and PRINT_REG (41_data_movement.md R101): O28. -/

namespace Sys2Proof.Machine

/-- R84: an instruction that does not fit below 256 ends the step at its first byte without a cell, whose address is
256. -/
theorem step_of_missingOperand {s : State} {o : Opcode} (hrun : s.state = .running)
    (hop : s.mem.read s.pc = o.byte) (hpc : s.pc ≤ 255) (hmiss : 255 < s.pc + o.operandCount) :
    step s = raise (.outOfBounds .operand 256) s := by
  rw [step_running hrun, fetchInstr_of_missing (decodeOpcode_eq_some.2 hop.symm) hpc hmiss]

/-- Settles O28: the register check decides between the append and the REGISTER error, and at 255 the one operand
byte has no cell. -/
theorem printRegAppendsItsRegister : Obligations.PrintRegAppendsItsRegister := by
  refine ⟨fun _ => rfl, fun s reg h => ?appends, fun s reg h => ?badRegister, fun s hrun hop hpc => ?missing⟩
  case appends => exact exec_printReg (checkReg_of_lt h)
  case badRegister => exact settle_checkReg_of_gt h _
  case missing =>
    have hmiss : 255 < s.pc + Opcode.printReg.operandCount := hpc ▸ Nat.lt_succ_self 255
    exact step_of_missingOperand (o := .printReg) hrun hop hpc.le hmiss

end Sys2Proof.Machine
end

section
/-! PROOFS. The ALU's operation table (42_alu.md R121): O24. -/

namespace Sys2Proof.Machine

/-- The ALU at a select that is neither ADD's nor MULTIPLY's. -/
theorem alu_of_unsupported {select : Byte} (hadd : select ≠ 0xA0) (hmul : select ≠ 0xA2) (va vb : Byte) :
    alu select va vb = .error (.unsupportedOperation select) :=
  (if_neg hadd).trans (if_neg hmul)

/-- Settles O24: one equation of the ALU per row; `lowByte` is the reduction mod 256. -/
theorem aluOperationTable : Obligations.AluOperationTable := by
  intro select va vb
  refine ⟨?sum, ?product, fun hadd hmul => ?other⟩
  case sum => exact alu_add va vb
  case product => exact alu_multiply va vb
  case other => exact alu_of_unsupported hadd hmul va vb

end Sys2Proof.Machine
end

section
/-! PROOFS. The value of every piece of state after reset (70_reset_and_hazards.md R211): O1. -/

namespace Sys2Proof.Machine

/-- Reset memory lists no cell, so every address reads as an unlisted one does (10_state.md R32). -/
@[simp] theorem reset_mem_read (a : Nat) : State.reset.mem.read a = Memory.unlisted := rfl

/-- Reset gives a value other than 0 to the stack pointer alone. -/
theorem reset_reg_of_ne_sp : ∀ r : Fin 8, r ≠ 7 → State.reset.reg r = 0 := by decide

@[simp] theorem reset_sp : State.reset.sp = Config.spReset := rfl

/-- Settles O1: memory and registers by their reset lemmas, and the other fields as `State.reset` writes them. -/
theorem resetGivesEveryStateItsValue : Obligations.ResetGivesEveryStateItsValue := by
  refine ⟨fun a _ => ?memory, reset_reg_of_ne_sp, ?stackPointer, ?pc, ?runState, ?output⟩
  case memory => exact reset_mem_read a
  case stackPointer => exact reset_sp
  case pc => rfl
  case runState => rfl
  case output => rfl

end Sys2Proof.Machine
end

section
/-! PROOFS. Everything an instruction can do, said once: the error it ends with, in the order of 60_exceptions.md R184,
or the state it completes with, and what either leaves unchanged. -/

namespace Sys2Proof.Machine

variable {s t : State} {ins : Instr} {reg : Byte} {i : Fin 8}

/-! ## The error an instruction ends with -/

/-- The error of a register operand (10_state.md R23). -/
def regError (reg : Byte) : Option Error :=
  if 7 < reg.toNat then some (.outOfBounds .register reg.toNat) else none

/-- The error of a push (43_stack.md R142). -/
def overflowError (s : State) : Option Error :=
  if s.sp = 0 then some (.stackOverflow s.sp) else none

/-- The error of a pop (43_stack.md R143). -/
def underflowError (s : State) : Option Error :=
  if s.sp = 255 then some (.stackUnderflow s.sp) else none

/-- The error of CALL's return address (44_call_return.md R162). -/
def returnError (s : State) : Option Error :=
  if 255 < s.pc + 2 then some (.outOfBounds .returnAddress (s.pc + 2)) else none

/-- The first error of a fetched instruction in R184's order, if it has one. -/
def instrError (s : State) : Instr → Option Error
  | .halt => none
  | .loadImmediate reg _ => regError reg
  | .printReg reg => regError reg
  | .multiply regA regB => (regError regA).or (regError regB)
  | .add regA regB => (regError regA).or (regError regB)
  | .push reg => (regError reg).or (overflowError s)
  | .pop reg => (regError reg).or (underflowError s)
  | .call reg => (regError reg).or ((returnError s).or (overflowError s))
  | .ret => underflowError s

theorem regError_of_gt (h : 7 < reg.toNat) : regError reg = some (.outOfBounds .register reg.toNat) := if_pos h

theorem regError_of_checkReg (h : checkReg reg = .ok i) : regError reg = none :=
  if_neg (by have := checkReg_ok.1 h; omega)

/-- A register operand names a register or is above 7. -/
theorem checkReg_ok_or_gt (reg : Byte) : (∃ i, checkReg reg = .ok i) ∨ 7 < reg.toNat := by
  rcases Nat.lt_or_ge reg.toNat 8 with h | h
  · exact .inl ⟨_, checkReg_of_lt h⟩
  · exact .inr h

/-- If there is an error, it is one that programs can meet. -/
def OnlyFromPrograms (err : Option Error) : Prop := ∀ e, err = some e → fromPrograms e = true

theorem onlyFromPrograms_ite {c : Prop} [Decidable c] {e : Error} (h : fromPrograms e = true) :
    OnlyFromPrograms (if c then some e else none) := by
  intro e' he
  split at he
  · exact Option.some.inj he ▸ h
  · cases he

theorem OnlyFromPrograms.or {err err' : Option Error} (h : OnlyFromPrograms err) (h' : OnlyFromPrograms err') :
    OnlyFromPrograms (err.or err') := by
  intro e he
  rcases Option.or_eq_some_iff.1 he with he | ⟨-, he⟩
  · exact h e he
  · exact h' e he

/-- Every error of an instruction is one that programs can meet. -/
theorem instrError_onlyFromPrograms (s : State) (ins : Instr) : OnlyFromPrograms (instrError s ins) := by
  have hreg (r : Byte) : OnlyFromPrograms (regError r) := onlyFromPrograms_ite rfl
  have hover : OnlyFromPrograms (overflowError s) := onlyFromPrograms_ite rfl
  have hunder : OnlyFromPrograms (underflowError s) := onlyFromPrograms_ite rfl
  have hret : OnlyFromPrograms (returnError s) := onlyFromPrograms_ite rfl
  cases ins with
  | halt => exact nofun
  | loadImmediate reg imm8 | printReg reg => exact hreg reg
  | multiply regA regB | add regA regB => exact (hreg regA).or (hreg regB)
  | push reg => exact (hreg reg).or hover
  | pop reg => exact (hreg reg).or hunder
  | call reg => exact (hreg reg).or (hret.or hover)
  | ret => exact hunder

/-! ## The state an instruction completes with -/

/-- `Completes s ins t`: the instruction meets no error in `s` and leaves `t`. -/
inductive Completes (s : State) : Instr → State → Prop where
  | halt : Completes s .halt ((s.setPc (s.pc + 1)).setRunState .halted)
  | loadImmediate {reg : Byte} {i : Fin 8} (imm8 : Byte) (hreg : checkReg reg = .ok i) :
      Completes s (.loadImmediate reg imm8) ((s.setReg i imm8).setPc (s.pc + 3))
  | printReg {reg : Byte} {i : Fin 8} (hreg : checkReg reg = .ok i) :
      Completes s (.printReg reg) ((s.emit (s.reg i)).setPc (s.pc + 2))
  | multiply {regA regB : Byte} {a b : Fin 8} (hA : checkReg regA = .ok a) (hB : checkReg regB = .ok b) :
      Completes s (.multiply regA regB)
        ((s.setReg a (lowByte ((s.reg a).toNat * (s.reg b).toNat))).setPc (s.pc + 3))
  | add {regA regB : Byte} {a b : Fin 8} (hA : checkReg regA = .ok a) (hB : checkReg regB = .ok b) :
      Completes s (.add regA regB)
        ((s.setReg a (lowByte ((s.reg a).toNat + (s.reg b).toNat))).setPc (s.pc + 3))
  | push {reg : Byte} {i : Fin 8} (hreg : checkReg reg = .ok i) (hsp : s.sp ≠ 0) :
      Completes s (.push reg)
        (((s.setSp (s.sp - 1)).setMem (s.mem.write (pushAddr s) (s.reg i))).setPc (s.pc + 2))
  | pop {reg : Byte} {i : Fin 8} (hreg : checkReg reg = .ok i) (hsp : s.sp ≠ 255) :
      Completes s (.pop reg) (((s.setSp (s.sp + 1)).setReg i (s.mem.read s.sp.toNat)).setPc (s.pc + 2))
  | call {reg : Byte} {i : Fin 8} (hreg : checkReg reg = .ok i) (hpc : s.pc ≤ 253) (hsp : s.sp ≠ 0) :
      Completes s (.call reg)
        (((s.setSp (s.sp - 1)).setMem (s.mem.write (pushAddr s) (BitVec.ofNat 8 (s.pc + 2)))).setPc
          (s.reg i).toNat)
  | ret (hsp : s.sp ≠ 255) :
      Completes s .ret ((s.setSp (s.sp + 1)).setPc (s.mem.read s.sp.toNat).toNat)

/-- The instruction raises the error there is, or completes. -/
def EndsAs (s : State) (ins : Instr) : Option Error → Prop
  | some e => exec ins s = raise e s
  | none => ∃ t, exec ins s = .next t ∧ Completes s ins t

/-- A register check decides whether the instruction ends there or as the errors after it say. -/
theorem endsAs_checkReg {err : Option Error}
    (hgt : 7 < reg.toNat → exec ins s = raise (.outOfBounds .register reg.toNat) s)
    (hok : ∀ i, checkReg reg = .ok i → EndsAs s ins err) :
    EndsAs s ins ((regError reg).or err) := by
  rcases checkReg_ok_or_gt reg with ⟨i, hi⟩ | h
  · rw [regError_of_checkReg hi, Option.none_or]
    exact hok i hi
  · rw [regError_of_gt h, Option.some_or]
    exact hgt h

/-- The register check is the instruction's last: it completes with the register checked. -/
theorem endsAs_lastCheckReg
    (hgt : 7 < reg.toNat → exec ins s = raise (.outOfBounds .register reg.toNat) s)
    (hok : ∀ i, checkReg reg = .ok i → ∃ t, exec ins s = .next t ∧ Completes s ins t) :
    EndsAs s ins (regError reg) := by
  rw [← Option.or_none (o := regError reg)]
  exact endsAs_checkReg hgt hok

/-- Every instruction raises the first error there is, and completes where there is none. -/
theorem exec_endsAs (ins : Instr) (s : State) : EndsAs s ins (instrError s ins) := by
  cases ins with
  | halt => exact ⟨_, exec_halt s, .halt⟩
  | loadImmediate reg imm8 =>
    exact endsAs_lastCheckReg (fun h => settle_checkReg_of_gt h _) fun i hi =>
      ⟨_, exec_loadImmediate imm8 hi, .loadImmediate imm8 hi⟩
  | printReg reg =>
    exact endsAs_lastCheckReg (fun h => settle_checkReg_of_gt h _) fun i hi => ⟨_, exec_printReg hi, .printReg hi⟩
  | multiply regA regB =>
    refine endsAs_checkReg (fun h => settle_checkReg_of_gt h _) fun a hA => ?_
    exact endsAs_lastCheckReg (fun h => congrArg (settle s) (aluInstr_of_gt_second _ hA h)) fun b hB =>
      ⟨_, exec_multiply hA hB, .multiply hA hB⟩
  | add regA regB =>
    refine endsAs_checkReg (fun h => settle_checkReg_of_gt h _) fun a hA => ?_
    exact endsAs_lastCheckReg (fun h => congrArg (settle s) (aluInstr_of_gt_second _ hA h)) fun b hB =>
      ⟨_, exec_add hA hB, .add hA hB⟩
  | push reg =>
    refine endsAs_checkReg (fun h => settle_checkReg_of_gt h _) fun i hi => ?_
    have hexec := exec_push (s := s) hi
    by_cases hsp : s.sp = 0
    · rw [overflowError, if_pos hsp, hsp]
      exact hexec.trans (if_pos hsp)
    · rw [overflowError, if_neg hsp]
      exact ⟨_, hexec.trans (if_neg hsp), .push hi hsp⟩
  | pop reg =>
    refine endsAs_checkReg (fun h => settle_checkReg_of_gt h _) fun i hi => ?_
    have hexec := exec_pop (s := s) hi
    by_cases hsp : s.sp = 255
    · rw [underflowError, if_pos hsp, hsp]
      exact hexec.trans (if_pos hsp)
    · rw [underflowError, if_neg hsp]
      exact ⟨_, hexec.trans (if_neg hsp), .pop hi hsp⟩
  | call reg =>
    refine endsAs_checkReg (fun h => settle_checkReg_of_gt h _) fun i hi => ?_
    have hexec := exec_call (s := s) hi
    by_cases hpc : s.pc < 254
    · rw [if_pos hpc] at hexec
      rw [returnError, if_neg (by omega), Option.none_or, overflowError]
      by_cases hsp : s.sp = 0
      · rw [if_pos hsp, hsp]
        exact hexec.trans (if_pos hsp)
      · rw [if_neg hsp]
        exact ⟨_, hexec.trans (if_neg hsp), .call hi (by omega) hsp⟩
    · rw [returnError, if_pos (by omega), Option.some_or]
      exact hexec.trans (if_neg hpc)
  | ret =>
    have hexec := exec_ret s
    by_cases hsp : s.sp = 255
    · rw [instrError, underflowError, if_pos hsp, hsp]
      exact hexec.trans (if_pos hsp)
    · rw [instrError, underflowError, if_neg hsp]
      exact ⟨_, hexec.trans (if_neg hsp), .ret hsp⟩

/-- `t` is `s` with an error taken that programs can meet. -/
def FaultsTo (s t : State) : Prop :=
  ∃ e, fromPrograms e = true ∧ t = s.setRunState (.faulted { error := e, pc := s.pc })

/-- A next state of an instruction: an error taken, or the state it completes with. -/
theorem exec_cases (h : exec ins s = .next t) : FaultsTo s t ∨ Completes s ins t := by
  have hends := exec_endsAs ins s
  cases herr : instrError s ins with
  | some e =>
    rw [herr] at hends
    exact .inl ⟨e, instrError_onlyFromPrograms s ins e herr, raise_eq_next.1 (hends.symm.trans h)⟩
  | none =>
    rw [herr] at hends
    obtain ⟨u, hu, hc⟩ := hends
    cases hu.symm.trans h
    exact .inr hc

/-! ## What a fault and a completed instruction leave -/

theorem FaultsTo.mem_eq (h : FaultsTo s t) : t.mem = s.mem := by
  obtain ⟨e, -, rfl⟩ := h; rfl

theorem FaultsTo.reg_eq (h : FaultsTo s t) (r : Fin 8) : t.reg r = s.reg r := by
  obtain ⟨e, -, rfl⟩ := h; rfl

theorem FaultsTo.pc_eq (h : FaultsTo s t) : t.pc = s.pc := by
  obtain ⟨e, -, rfl⟩ := h; rfl

theorem FaultsTo.out_eq (h : FaultsTo s t) : t.out = s.out := by
  obtain ⟨e, -, rfl⟩ := h; rfl

theorem FaultsTo.isFaulted (h : FaultsTo s t) : isFaulted t = true := by
  obtain ⟨e, -, rfl⟩ := h; rfl

theorem Completes.of_exec (h : exec ins s = .next t) (hok : isFaulted t = false) : Completes s ins t :=
  (exec_cases h).resolve_left fun hf => by rw [hf.isFaulted] at hok; cases hok

/-- The register indices an instruction can write, x[7] as the stack pointer among them. -/
def writtenRegs : Instr → List Byte
  | .halt => []
  | .loadImmediate reg _ => [reg]
  | .printReg _ => []
  | .multiply regA _ => [regA]
  | .add regA _ => [regA]
  | .push _ => [7]
  | .pop reg => [7, reg]
  | .call _ => [7]
  | .ret => [7]

/-- The instruction stores to the stack: PUSH or CALL. -/
def storesToStack : Instr → Bool
  | .push _ => true
  | .call _ => true
  | .halt => false
  | .loadImmediate _ _ => false
  | .printReg _ => false
  | .multiply _ _ => false
  | .add _ _ => false
  | .pop _ => false
  | .ret => false

theorem reg_setReg_of_checkReg (h : checkReg reg = .ok i) {r : Fin 8} (hr : r.val ≠ reg.toNat) (v : Byte)
    (s : State) : (s.setReg i v).reg r = s.reg r :=
  s.setReg_reg_other i r v fun e => hr (by rw [e, checkReg_ok.1 h])

theorem Completes.reg_eq (h : Completes s ins t) {r : Fin 8} (hr : ∀ d ∈ writtenRegs ins, r.val ≠ d.toNat) :
    t.reg r = s.reg r := by
  have hsp (h7 : r.val ≠ 7) (v : Byte) : (s.setSp v).reg r = s.reg r :=
    s.setSp_reg_other r v fun e => h7 (congrArg Fin.val e)
  cases h with
  | halt | printReg hreg => rfl
  | loadImmediate imm8 hreg => exact reg_setReg_of_checkReg hreg (hr _ (by simp [writtenRegs])) _ s
  | multiply hA hB | add hA hB => exact reg_setReg_of_checkReg hA (hr _ (by simp [writtenRegs])) _ s
  | push hreg hnz | call hreg hpc hnz | ret hnt => exact hsp (hr 7 (by simp [writtenRegs])) _
  | pop hreg hnt =>
    exact (reg_setReg_of_checkReg hreg (hr _ (by simp [writtenRegs])) _ _).trans
      (hsp (hr 7 (by simp [writtenRegs])) _)

/-- Memory is as before, or a PUSH or CALL wrote the byte below the stack pointer. -/
theorem Completes.mem_cases (h : Completes s ins t) :
    t.mem = s.mem ∨ storesToStack ins = true ∧ s.sp ≠ 0 ∧ ∃ v, t.mem = s.mem.write (pushAddr s) v := by
  cases h with
  | push hreg hsp | call hreg hpc hsp => exact .inr ⟨rfl, hsp, _, rfl⟩
  | halt | loadImmediate | printReg | multiply | add | pop | ret => exact .inl rfl

/-- The output is as before, or a PRINT_REG appended its register. -/
theorem Completes.out_cases (h : Completes s ins t) :
    t.out = s.out ∨ ∃ reg i, ins = .printReg reg ∧ checkReg reg = .ok i ∧ t.out = s.out ++ [s.reg i] := by
  cases h with
  | printReg hreg => exact .inr ⟨_, _, rfl, hreg, rfl⟩
  | halt | loadImmediate | multiply | add | push | pop | call | ret => exact .inl rfl

/-- HALT alone changes the run state. -/
theorem Completes.state_eq (h : Completes s ins t) :
    t.state = if ins = .halt then .halted else s.state := by
  cases h <;> rfl

end Sys2Proof.Machine
end

section
/-! PROOFS. Everything a step can do, said once, and the machine's invariant: O2, O3, O4. -/

namespace Sys2Proof

open Machine

variable {s t : State} {ins : Instr}

theorem encode_length (ins : Instr) : (encode ins).length = 1 + ins.opcode.operandCount := by
  rw [encode, List.length_cons, operands_length, Nat.add_comm]

namespace Machine

/-! ## What a step runs -/

/-- The fetch at the program counter answers this instruction: its opcode byte and its operand bytes stand there, all
below 256. -/
structure Fetched (s : State) (ins : Instr) : Prop where
  opcode : s.mem.read s.pc = ins.opcode.byte
  operands : assemble ins.opcode (s.mem.read (s.pc + 1)) (s.mem.read (s.pc + 2)) = ins
  fits : s.pc + ins.opcode.operandCount ≤ 255

theorem fetchInstr_eq_ok : fetchInstr s = .ok ins ↔ Fetched s ins := by
  constructor
  · intro h
    rcases fetchInstr_cases s with ⟨-, he⟩ | ⟨-, -, he⟩ | ⟨o, -, hd, ⟨-, he⟩ | ⟨hfit, hok⟩⟩
    · cases he.symm.trans h
    · cases he.symm.trans h
    · cases he.symm.trans h
    · cases hok.symm.trans h
      have ho := assemble_opcode o (s.mem.read (s.pc + 1)) (s.mem.read (s.pc + 2))
      exact ⟨by rw [ho, byte_of_decodeOpcode hd], by rw [ho], by rwa [ho]⟩
  · rintro ⟨hop, hargs, hfit⟩
    rw [fetchInstr_of_opcode (decodeOpcode_eq_some.2 hop.symm) hfit, hargs]

/-- A fetch raises only errors that programs can meet. -/
theorem fromPrograms_of_fetchInstr {e : Error} (h : fetchInstr s = .error e) : fromPrograms e = true := by
  rcases fetchInstr_cases s with ⟨-, he⟩ | ⟨-, -, he⟩ | ⟨o, -, -, ⟨-, he⟩ | ⟨-, hok⟩⟩
  · cases he.symm.trans h; rfl
  · cases he.symm.trans h; rfl
  · cases he.symm.trans h; rfl
  · cases hok.symm.trans h

theorem step_of_fetched (hrun : s.state = .running) (h : Fetched s ins) : step s = exec ins s := by
  rw [step_running hrun, fetchInstr_eq_ok.2 h]

theorem step_of_fetchInstr_error {e : Error} (hrun : s.state = .running) (h : fetchInstr s = .error e) :
    step s = raise e s := by
  rw [step_running hrun, h]

/-- A step takes an error, or completes the instruction it fetched. -/
theorem step_cases (h : step s = .next t) :
    s.state = .running ∧ (FaultsTo s t ∨ ∃ ins, Fetched s ins ∧ Completes s ins t) := by
  have hrun := running_of_step h
  refine ⟨hrun, ?_⟩
  cases hf : fetchInstr s with
  | error e =>
    rw [step_of_fetchInstr_error hrun hf] at h
    exact .inl ⟨e, fromPrograms_of_fetchInstr hf, raise_eq_next.1 h⟩
  | ok ins =>
    have hfetched := fetchInstr_eq_ok.1 hf
    rw [step_of_fetched hrun hfetched] at h
    exact (exec_cases h).imp_right fun hc => ⟨ins, hfetched, hc⟩

/-! ## The invariant -/

/-- A completed instruction leaves `pc` past its own bytes, or at a byte's value. -/
theorem Completes.pc_cases (h : Completes s ins t) : t.pc = s.pc + (encode ins).length ∨ t.pc < 256 := by
  cases h with
  | call hreg hpc hsp => exact .inr (BitVec.isLt _)
  | ret hsp => exact .inr (BitVec.isLt _)
  | halt | loadImmediate | printReg | multiply | add | push | pop => exact .inl rfl

theorem Completes.mem_wf (h : Completes s ins t) (hwf : s.mem.wf) : t.mem.wf := by
  rcases h.mem_cases with hm | ⟨-, -, v, hm⟩
  · rwa [hm]
  · rw [hm]
    exact Memory.write_wf v hwf (pushAddr_lt s)

theorem recordOk_of_not_faulted (h : ∀ e, t.state ≠ .faulted e) : recordOk t := by
  unfold recordOk
  split
  · trivial
  · trivial
  · next e he => exact absurd he (h e)

theorem Completes.not_faulted (h : Completes s ins t) (hrun : s.state = .running) (e : ErrorRecord) :
    t.state ≠ .faulted e := by
  rw [h.state_eq, hrun]
  split <;> nofun

theorem FaultsTo.recordOk (h : FaultsTo s t) : recordOk t := by
  obtain ⟨e, he, rfl⟩ := h
  exact ⟨rfl, he⟩

/-- Settles O3: a fault keeps memory and `pc`; a completed instruction writes memory only below the stack pointer and
moves `pc` past bytes that fit, or to a byte's value. -/
theorem stepKeepsInvariant : Obligations.StepKeepsInvariant := by
  rintro s t ⟨hwf, hpc, -⟩ hstep
  obtain ⟨hrun, hfault | ⟨ins, hfetched, hdone⟩⟩ := step_cases hstep
  · exact ⟨hfault.mem_eq ▸ hwf, hfault.pc_eq ▸ hpc, hfault.recordOk⟩
  · refine ⟨hdone.mem_wf hwf, ?_, recordOk_of_not_faulted (hdone.not_faulted hrun)⟩
    have hfits := hfetched.fits
    rcases hdone.pc_cases with hnext | hjump
    · rw [hnext, encode_length]
      omega
    · exact hjump.le

/-- Settles O2: reset memory lists nothing, `pc` is 0 and there is no record. -/
theorem resetMeetsInvariant : Obligations.ResetMeetsInvariant :=
  ⟨reset_mem_wf, Nat.zero_le 256, trivial⟩

/-- What every step keeps holds of every state reached. -/
theorem reaches_keeps {P : State → Prop} (hkeep : ∀ u v, P u → step u = .next v → P v) (h : Reaches s t)
    (hs : P s) : P t := by
  induction h with
  | refl => exact hs
  | tail _ hstep ih => exact hkeep _ _ ih hstep

/-- A load that is not refused replaces memory by the one with the image's bytes. -/
theorem load_eq_some {img : List Byte} :
    s.load img = some t ↔ ∃ m, loadBytes Config.loadBase img s.mem = .ok m ∧ t = s.setMem m := by
  unfold State.load
  cases loadBytes Config.loadBase img s.mem <;> simp [eq_comm]

/-- The host's load keeps the invariant. -/
theorem load_keepsInv {img : List Byte} (hs : MachineInv s) (h : s.load img = some t) : MachineInv t := by
  obtain ⟨m, hm, rfl⟩ := load_eq_some.1 h
  obtain ⟨hwf, hpc, hrec⟩ := hs
  exact ⟨loadBytes_wf img _ hwf hm, hpc, hrec⟩

/-- Settles O4: the invariant holds at reset, the host's load keeps it, and every step keeps it. -/
theorem bootedRunsMeetInvariant : Obligations.BootedRunsMeetInvariant :=
  fun _ _ _ hboot hreach => reaches_keeps stepKeepsInvariant hreach (load_keepsInv resetMeetsInvariant hboot)

end Machine

end Sys2Proof
end

section
/-! PROOFS. Decoding and encoding agree, and the two decoders, over bytes and over memory, agree: O11, O12, O15,
O16. -/

namespace Sys2Proof

open Machine

/-! ## The decoder over bytes -/

/-- An instruction put together from its own opcode and its operand bytes, with anything after them. -/
theorem assemble_operands (ins : Instr) (rest : List Byte) :
    assemble ins.opcode ((ins.operands ++ rest).getD 0 0) ((ins.operands ++ rest).getD 1 0) = ins := by
  cases ins <;> rfl

/-- The operands of an assembled instruction are as many of its first bytes as its opcode has. -/
theorem operands_assemble (o : Opcode) (bytes : List Byte) (h : o.operandCount ≤ bytes.length) :
    (assemble o (bytes.getD 0 0) (bytes.getD 1 0)).operands = bytes.take o.operandCount := by
  cases o with
  | halt | ret => rfl
  | printReg | push | pop | call => match bytes, h with | _ :: _, _ => rfl
  | loadImmediate | multiply | add => match bytes, h with | _ :: _ :: _, _ => rfl

theorem decode_cons (ob : Byte) (rest : List Byte) {o : Opcode} (h : decodeOpcode ob = some o) :
    decode (ob :: rest) =
      if rest.length < o.operandCount then .error .missingOperand
      else .ok (assemble o (rest.getD 0 0) (rest.getD 1 0), rest.drop o.operandCount) := by
  simp only [decode, h]

theorem decode_cons_of_illegal {ob : Byte} (rest : List Byte) (h : decodeOpcode ob = none) :
    decode (ob :: rest) = .error (.illegalOpcode ob) := by
  simp only [decode, h]

theorem decode_encode (ins : Instr) (rest : List Byte) : decode (encode ins ++ rest) = .ok (ins, rest) := by
  have hlen := operands_length ins
  rw [encode, List.cons_append, decode_cons _ _ (decodeOpcode_byte _), assemble_operands, if_neg, ← hlen,
    List.drop_left]
  rw [List.length_append]
  omega

theorem encode_of_decode {bytes rest : List Byte} {ins : Instr} (h : decode bytes = .ok (ins, rest)) :
    bytes = encode ins ++ rest := by
  cases bytes with
  | nil => cases h
  | cons ob tail =>
    cases ho : decodeOpcode ob with
    | none => rw [decode_cons_of_illegal tail ho] at h; cases h
    | some o =>
      rw [decode_cons ob tail ho] at h
      split at h
      · cases h
      · next hlen =>
        cases h
        rw [encode, assemble_opcode, byte_of_decodeOpcode ho, operands_assemble o tail (Nat.not_lt.1 hlen),
          List.cons_append, List.take_append_drop]

/-- Settles O11: what is encoded decodes, and what decodes was the encoding of what was read. -/
theorem decodeReadsExactlyTheEncoding : Obligations.DecodeReadsExactlyTheEncoding :=
  fun _ ins rest => ⟨encode_of_decode, fun h => h ▸ decode_encode ins rest⟩

/-- Settles O12: each of the nine words is the encoding of its instruction. -/
theorem writtenOutWordsDecode : Obligations.WrittenOutWordsDecode :=
  ⟨decode_encode .halt [], decode_encode (.loadImmediate 3 255) [], decode_encode (.printReg 5) [],
    decode_encode (.multiply 0 1) [], decode_encode (.add 6 2) [], decode_encode (.push 7) [],
    decode_encode (.pop 2) [], decode_encode (.call 1) [], decode_encode .ret []⟩

/-! ## The bytes the fetch unit reads -/

theorem codeBytes_of_beyond {s : State} (h : 255 < s.pc) : codeBytes s = [] := by
  rw [codeBytes, Nat.sub_eq_zero_of_le h]
  rfl

/-- The bytes after the opcode byte, to the top of memory. -/
def operandBytes (s : State) : List Byte :=
  (List.range' (s.pc + 1) (255 - s.pc)).map s.mem.read

theorem codeBytes_of_le {s : State} (h : s.pc ≤ 255) : codeBytes s = s.mem.read s.pc :: operandBytes s := by
  rw [codeBytes, show 256 - s.pc = 255 - s.pc + 1 by omega, List.range'_succ, List.map_cons, operandBytes]

@[simp] theorem operandBytes_length (s : State) : (operandBytes s).length = 255 - s.pc := by
  simp [operandBytes]

theorem operandBytes_getD {s : State} {k : Nat} (h : s.pc + 1 + k ≤ 255) :
    (operandBytes s).getD k 0 = s.mem.read (s.pc + 1 + k) := by
  have hk : k < 255 - s.pc := by omega
  simp [operandBytes, List.getD, List.getElem?_range' hk]

/-- Only the operand bytes an opcode has are looked at (R62, R63). -/
theorem assemble_congr {o : Opcode} {op1 op1' op2 op2' : Byte} (h1 : 1 ≤ o.operandCount → op1 = op1')
    (h2 : 2 ≤ o.operandCount → op2 = op2') : assemble o op1 op2 = assemble o op1' op2' := by
  cases o with
  | halt | ret => rfl
  | printReg | push | pop | call => rw [h1 (Nat.le_refl 1)]; rfl
  | loadImmediate | multiply | add => rw [h1 (Nat.le_succ 1), h2 (Nat.le_refl 2)]

theorem assemble_operandBytes {s : State} {o : Opcode} (hfit : s.pc + o.operandCount ≤ 255) :
    assemble o ((operandBytes s).getD 0 0) ((operandBytes s).getD 1 0) =
      assemble o (s.mem.read (s.pc + 1)) (s.mem.read (s.pc + 2)) :=
  assemble_congr (fun h => operandBytes_getD (by omega)) (fun h => operandBytes_getD (by omega))

/-- The error a fetch raises for bytes that hold no instruction; a missing operand byte's address is 256. -/
def fetchError (pc : Nat) : DecodeError → Error
  | .noOpcode => .outOfBounds .fetch pc
  | .illegalOpcode b => .illegalInstruction b
  | .missingOperand => .outOfBounds .operand 256

/-- The fetch unit answers what the decoder answers on the bytes from `pc` to the top of memory. -/
theorem fetchInstr_eq_decode (s : State) :
    fetchInstr s = ((decode (codeBytes s)).map Prod.fst).mapError (fetchError s.pc) := by
  rcases fetchInstr_cases s with ⟨hpc, hf⟩ | ⟨hpc, hd, hf⟩ | ⟨o, hpc, hd, ⟨hmiss, hf⟩ | ⟨hfit, hf⟩⟩ <;> rw [hf]
  · rw [codeBytes_of_beyond hpc]
    rfl
  · rw [codeBytes_of_le hpc, decode_cons_of_illegal _ hd]
    rfl
  · rw [codeBytes_of_le hpc, decode_cons _ _ hd, operandBytes_length, if_pos (by omega)]
    rfl
  · rw [codeBytes_of_le hpc, decode_cons _ _ hd, operandBytes_length, if_neg (by omega),
      assemble_operandBytes hfit]
    rfl

namespace Machine

/-- Settles O15: the fetch answers the decoded instruction. -/
theorem stepRunsDecodedInstruction : Obligations.StepRunsDecodedInstruction := by
  intro s ins rest hrun hdecode
  have hfetch : fetchInstr s = .ok ins := by rw [fetchInstr_eq_decode, hdecode]; rfl
  exact step_of_fetched hrun (fetchInstr_eq_ok.1 hfetch)

/-- Bytes that decode to nothing end the step with the fetch's error. -/
theorem step_of_decode_error {s : State} {d : DecodeError} (hrun : s.state = .running)
    (h : decode (codeBytes s) = .error d) : step s = raise (fetchError s.pc d) s := by
  have hfetch : fetchInstr s = .error (fetchError s.pc d) := by rw [fetchInstr_eq_decode, h]; rfl
  exact step_of_fetchInstr_error hrun hfetch

/-- Settles O16: the three ways in which bytes decode to nothing, each with its error. -/
theorem stepRaisesWhereNothingDecodes : Obligations.StepRaisesWhereNothingDecodes :=
  fun _ hrun => ⟨step_of_decode_error hrun, fun _ => step_of_decode_error hrun, step_of_decode_error hrun⟩

end Machine

end Sys2Proof
end

section
/-! PROOFS. The host's load and the end of a run: O6 to O10. -/

namespace Sys2Proof.Machine

variable {s t u : State} {img : List Byte} {m m' : Memory} {a : Nat}

/-! ## load -/

/-- `m'` holds the image from address `a`, and is as `m` at every other address. -/
def HoldsImage (m' m : Memory) (a : Nat) (img : List Byte) : Prop :=
  (∀ k, k < img.length → m'.read (a + k) = img.getD k 0) ∧
    ∀ b, b < a ∨ a + img.length ≤ b → m'.read b = m.read b

/-- An image loaded after a byte below it. -/
theorem HoldsImage.cons {b : Byte} (h : HoldsImage m' (m.write a b) (a + 1) img) :
    HoldsImage m' m a (b :: img) := by
  obtain ⟨himg, hother⟩ := h
  refine ⟨fun k hk => ?_, fun c hc => ?_⟩
  · cases k with
    | zero => rw [Nat.add_zero, hother a (.inl (Nat.lt_succ_self a)), Memory.read_write_same]; rfl
    | succ k => rw [← Nat.add_assoc, Nat.add_right_comm, himg k (Nat.lt_of_succ_lt_succ hk)]; rfl
  · rw [List.length_cons] at hc
    rw [hother c (by omega), Memory.read_write_other m b (by omega)]

theorem loadBytes_cons_of_lt (b : Byte) (img : List Byte) (m : Memory) (h : a < 256) :
    loadBytes a (b :: img) m = loadBytes (a + 1) img (m.write a b) := by
  rw [loadBytes, memWrite_of_lt .load b m h, except_ok_bind]

theorem loadBytes_cons_of_ge (b : Byte) (img : List Byte) (m : Memory) (h : 256 ≤ a) :
    loadBytes a (b :: img) m = .error (.outOfBounds .load a) := by
  rw [loadBytes, memWrite_of_ge .load b m h, except_error_bind]

/-- An image that ends at or below address 256 is written. -/
theorem loadBytes_of_fits (m : Memory) (h : a + img.length ≤ 256) :
    ∃ m', loadBytes a img m = .ok m' ∧ HoldsImage m' m a img := by
  induction img generalizing a m with
  | nil => exact ⟨m, rfl, nofun, fun _ _ => rfl⟩
  | cons b rest ih =>
    rw [List.length_cons] at h
    obtain ⟨m', hload, hholds⟩ := ih (a := a + 1) (m.write a b) (by omega)
    exact ⟨m', (loadBytes_cons_of_lt b rest m (by omega)).trans hload, hholds.cons⟩

/-- An image that would go past 255 is refused at its first byte there. -/
theorem loadBytes_of_too_long (m : Memory) (ha : a ≤ 256) (h : 256 < a + img.length) :
    loadBytes a img m = .error (.outOfBounds .load 256) := by
  induction img generalizing a m with
  | nil => exact absurd h (Nat.not_lt.2 ha)
  | cons b rest ih =>
    rw [List.length_cons] at h
    rcases Nat.lt_or_eq_of_le ha with hlt | rfl
    · rw [loadBytes_cons_of_lt b rest m hlt]
      exact ih _ hlt (by omega)
    · exact loadBytes_cons_of_ge b rest m (Nat.le_refl 256)

/-- Settles O6: the image's bytes are written one by one from address 0, and the 257th has no cell. -/
theorem loadWritesImageOrIsRefused : Obligations.LoadWritesImageOrIsRefused := by
  refine fun s img => ⟨fun hfits => ?_, fun hlong => ?_⟩
  · obtain ⟨m, hm, himg, hother⟩ := loadBytes_of_fits (a := 0) (img := img) s.mem (by omega)
    refine ⟨s.setMem m, load_eq_some.2 ⟨m, hm, rfl⟩, rfl, rfl, rfl, rfl, fun a ha => ?_, fun a ha => ?_⟩
    · simpa using himg a ha
    · exact hother a (.inr (by omega))
  · rw [State.load, loadBytes_of_too_long s.mem (Nat.zero_le 256) (by rwa [Nat.zero_add])]

/-! ## Where a machine steps -/

/-- A running machine has a next state: its fetch's error is taken, or its instruction answers one. -/
theorem step_next_of_running (hrun : s.state = .running) : ∃ t, step s = .next t := by
  cases hf : fetchInstr s with
  | error e => exact ⟨_, step_of_fetchInstr_error hrun hf⟩
  | ok ins =>
    rw [step_of_fetched hrun (fetchInstr_eq_ok.1 hf)]
    exact exec_next ins s

/-- Settles O7: only a running machine has a next state, and its fetch and its instruction always answer one. -/
theorem stepsExactlyWhenRunning : Obligations.StepsExactlyWhenRunning :=
  fun _ => ⟨fun ⟨_, h⟩ => running_of_step h, step_next_of_running⟩

theorem step_of_halted (h : s.state = .halted) : step s = .fault .noStepHalted := by
  rw [step, h]

theorem step_of_faulted {e : ErrorRecord} (h : s.state = .faulted e) : step s = .fault (.noStepFaulted e) := by
  rw [step, h]

/-! ## The executor -/

theorem result_eq_none {r : RunState} : r.result = none ↔ r = .running := by
  cases r <;> simp [RunState.result]

/-- In a terminal run state the executor returns at once. -/
theorem runFor_of_result {r : RunResult} (n : Nat) (h : s.state.result = some r) : runFor n s = some (r, s) := by
  rw [runFor.eq_def, h]

/-- In RUNNING the executor with fuel left goes on from the next state. -/
theorem runFor_of_step (n : Nat) (h : step s = .next t) : runFor (n + 1) s = runFor n t := by
  rw [runFor, result_eq_none.2 (running_of_step h), h]

/-- How the executor comes to an answer: in a terminal run state at once, in RUNNING from the next state. -/
theorem runFor_cases {x : RunResult × State} {n : Nat} (h : runFor n s = some x) :
    (∃ r, s.state.result = some r ∧ x = (r, s)) ∨
      ∃ k u, n = k + 1 ∧ step s = .next u ∧ runFor k u = some x := by
  cases hres : s.state.result with
  | some r => exact .inl ⟨r, rfl, Option.some.inj (h.symm.trans (runFor_of_result n hres))⟩
  | none =>
    cases n with
    | zero => rw [runFor, hres] at h; cases h
    | succ k =>
      obtain ⟨u, hstep⟩ := step_next_of_running (result_eq_none.1 hres)
      exact .inr ⟨k, u, rfl, hstep, (runFor_of_step k hstep).symm.trans h⟩

/-- Settles O8: a terminal run state has no step, and the executor returns its result at once. -/
theorem terminalStatesHaveNoStep : Obligations.TerminalStatesHaveNoStep := by
  refine fun s n => ⟨fun h => ⟨step_of_halted h, ?_⟩, fun e h => ⟨step_of_faulted h, ?_⟩⟩
  · exact runFor_of_result n (by rw [h]; rfl)
  · exact runFor_of_result n (by rw [h]; rfl)

theorem reaches_head (hstep : step s = .next t) (h : Reaches t u) : Reaches s u := by
  induction h with
  | refl => exact .tail .refl hstep
  | tail _ hlast ih => exact .tail ih hlast

/-- What the executor returns is an end of the run. -/
theorem runReturns_of_runFor {r : RunResult} {n : Nat} (h : runFor n s = some (r, t)) : RunReturns s r t := by
  induction n using Nat.strong_induction_on generalizing s with
  | _ n ih =>
    obtain ⟨r', hres, hx⟩ | ⟨k, u, rfl, hstep, hrest⟩ := runFor_cases h
    · cases hx
      exact ⟨.refl, hres⟩
    · obtain ⟨hreach, hend⟩ := ih k (Nat.lt_succ_self k) hrest
      exact ⟨reaches_head hstep hreach, hend⟩

/-- The executor gets from a state to any state it reaches, with some more fuel. -/
theorem runFor_of_reaches {x : RunResult × State} {n : Nat} (h : Reaches s t) (hx : runFor n t = some x) :
    ∃ k, runFor k s = some x := by
  induction h generalizing n with
  | refl => exact ⟨n, hx⟩
  | tail _ hstep ih => exact ih ((runFor_of_step n hstep).trans hx)

/-- Settles O9: by induction on the fuel one way, and on the steps of the run the other. -/
theorem executorFindsExactlyTheRunsEnd : Obligations.ExecutorFindsExactlyTheRunsEnd :=
  fun _ _ _ => ⟨fun ⟨_, h⟩ => runReturns_of_runFor h,
    fun ⟨hreach, hend⟩ => runFor_of_reaches hreach (runFor_of_result 0 hend)⟩

/-- Whatever fuel the executor returns with, it returns the same. -/
theorem runFor_unique {x y : RunResult × State} {n k : Nat} (hx : runFor n s = some x)
    (hy : runFor k s = some y) : x = y := by
  induction n using Nat.strong_induction_on generalizing s k with
  | _ n ih =>
    obtain ⟨r, hres, rfl⟩ | ⟨n', u, rfl, hstep, hrest⟩ := runFor_cases hx
    · exact Option.some.inj ((runFor_of_result k hres).symm.trans hy)
    · obtain ⟨r, hres, -⟩ | ⟨k', u', rfl, hstep', hrest'⟩ := runFor_cases hy
      · rw [running_of_step hstep] at hres
        cases hres
      · cases hstep.symm.trans hstep'
        exact ih n' (Nat.lt_succ_self n') hrest hrest'

/-- Two ends of a run are the same, since the executor finds both. -/
theorem runReturns_unique {r r' : RunResult} {t t' : State} (h : RunReturns s r t) (h' : RunReturns s r' t') :
    r = r' ∧ t = t' := by
  obtain ⟨n, hn⟩ := (executorFindsExactlyTheRunsEnd s r t).2 h
  obtain ⟨k, hk⟩ := (executorFindsExactlyTheRunsEnd s r' t').2 h'
  exact Prod.mk.inj (runFor_unique hn hk)

/-- A run goes on forever exactly when it has no end. -/
theorem runsForever_iff : RunsForever s ↔ ¬ ∃ r t, RunReturns s r t := by
  constructor
  · rintro hforever ⟨r, t, hreach, hend⟩
    rw [hforever t hreach] at hend
    cases hend
  · intro hnone t hreach
    refine result_eq_none.1 (Option.eq_none_iff_forall_not_mem.2 fun r hr => ?_)
    exact hnone ⟨r, t, hreach, hr⟩

/-- Settles O10: a run goes on forever or it ends, and the executor answers one end only. -/
theorem runEndsInExactlyOneWay : Obligations.RunEndsInExactlyOneWay := by
  refine fun s => ⟨?_, fun ⟨hends, hforever⟩ => runsForever_iff.1 hforever hends, ?_⟩
  · rw [runsForever_iff]
    exact Classical.em _
  · exact fun _ _ _ _ => runReturns_unique

end Sys2Proof.Machine
end

section
/-! PROOFS. Errors: what a fault leaves, and which error is reported (60_exceptions.md R180 to R184): O5, O17 to
O20. -/

namespace Sys2Proof.Machine

variable {s t : State} {o : Opcode}

/-- Settles O5: reset memory reads 0 at address 0, a byte that selects no opcode. -/
theorem unloadedMachineFailsAtOnce : Obligations.UnloadedMachineFailsAtOnce :=
  step_of_illegalOpcode (s := State.reset) rfl (Nat.zero_le 255) (by decide)

/-- Settles O17: `raise`, and the table of codes, subkinds and infos row by row. -/
theorem raisingEntersFaultedPrecisely : Obligations.RaisingEntersFaultedPrecisely := by
  refine ⟨fun _ _ => rfl, ?outOfBounds, ?illegal, ?unsupported, ?overflow, ?underflow⟩
  case outOfBounds => exact fun _ _ => ⟨rfl, rfl, rfl⟩
  case illegal => exact fun _ => ⟨rfl, rfl, rfl⟩
  case unsupported => exact fun _ => ⟨rfl, rfl, rfl⟩
  case overflow => exact fun _ => ⟨rfl, rfl, rfl⟩
  case underflow => exact fun _ => ⟨rfl, rfl, rfl⟩

/-- A step that ends in FAULTED took an error. -/
theorem faultsTo_of_step {e : ErrorRecord} (h : step s = .next t) (hf : t.state = .faulted e) : FaultsTo s t := by
  obtain ⟨hrun, hfault | ⟨ins, -, hdone⟩⟩ := step_cases h
  · exact hfault
  · exact absurd hf (hdone.not_faulted hrun e)

/-- Settles O18: a faulting step took an error, which sets the run state alone. -/
theorem faultingStepsArePrecise : Obligations.FaultingStepsArePrecise := by
  intro s t e hstep hf
  obtain ⟨err, -, rfl⟩ := faultsTo_of_step hstep hf
  cases hf
  exact ⟨running_of_step hstep, rfl, rfl⟩

/-- Settles O20: the errors a step takes are those that programs can meet. -/
theorem noStepRaisesUnsupportedOperation : Obligations.NoStepRaisesUnsupportedOperation := by
  intro s t e hstep hf select herr
  obtain ⟨err, hprog, rfl⟩ := faultsTo_of_step hstep hf
  cases hf
  rw [show err = .unsupportedOperation select from herr] at hprog
  cases hprog

/-! ## The order of the conditions -/

/-- x[7] is the stack pointer (10_state.md R22). -/
theorem reg_seven (s : State) : s.reg 7 = s.sp := rfl

/-- The conditions are tried one after the other. -/
theorem findError_cons (c : Bool) (e : Error) (rest : List (Bool × Error)) :
    (((c, e) :: rest).findSome? fun c => if c.1 then some c.2 else none) =
      (if c then some e else none).or (rest.findSome? fun c => if c.1 then some c.2 else none) := by
  cases c <;> simp

theorem firstError_of_beyond (h : 255 < s.pc) : firstError s = some (.outOfBounds .fetch s.pc) := by
  simp [firstError, errorConditions, h]

theorem firstError_of_illegal (hpc : s.pc ≤ 255) (h : decodeOpcode (s.mem.read s.pc) = none) :
    firstError s = some (.illegalInstruction (s.mem.read s.pc)) := by
  have hother : s.mem.read s.pc ∉ [0x01, 0x82, 0x47, 0xA2, 0xA0, 0x45, 0x46, 0x50, 0x11] :=
    decodeOpcode_eq_none.1 h
  simp only [firstError, errorConditions, findError_cons, Nat.not_lt.2 hpc, hother, gt_iff_lt, decide_false,
    decide_true, not_false_eq_true, if_true, if_false, Bool.false_eq_true, Option.none_or, Option.some_or]

/-- With an operand byte beyond 255, the first such address is 256. -/
theorem firstError_of_missing (hop : s.mem.read s.pc = o.byte) (hpc : s.pc ≤ 255)
    (hmiss : 255 < s.pc + o.operandCount) : firstError s = some (.outOfBounds .operand 256) := by
  have hcount := o.operandCount_le
  obtain h255 | h254 : s.pc = 255 ∨ s.pc = 254 := by omega
  · rw [h255] at hop hmiss
    cases o with
    | halt | ret => exact absurd hmiss (by decide)
    | printReg | push | pop | call | loadImmediate | multiply | add =>
      simp [firstError, errorConditions, hop, h255, Opcode.byte]
  · rw [h254] at hop hmiss
    cases o with
    | halt | ret | printReg | push | pop | call => exact absurd hmiss (by decide)
    | loadImmediate | multiply | add => simp [firstError, errorConditions, hop, h254, Opcode.byte]

/-- With all its bytes in memory, the conditions of the fetched instruction are left, in the same order. -/
theorem firstError_of_fetched {ins : Instr} (h : Fetched s ins) : firstError s = instrError s ins := by
  obtain ⟨hop, hargs, hfit⟩ := h
  have h0 : ¬ 255 < s.pc := by omega
  cases ins with
  | halt => simp [firstError, errorConditions, hop, h0, Opcode.byte, Instr.opcode, instrError]
  | ret =>
    simp [firstError, errorConditions, hop, h0, Opcode.byte, Instr.opcode, instrError, underflowError, reg_seven]
  | printReg reg | push reg | pop reg | call reg =>
    have h1 : ¬ 255 < s.pc + 1 := Nat.not_lt.2 hfit
    cases hargs
    simp [firstError, errorConditions, findError_cons, hop, h0, h1, Opcode.byte, Instr.opcode, instrError,
      regError, returnError, overflowError, underflowError, reg_seven]
  | loadImmediate regA regB | multiply regA regB | add regA regB =>
    have h2 : ¬ 255 < s.pc + 2 := Nat.not_lt.2 hfit
    have h1 : ¬ 255 < s.pc + 1 := by omega
    cases hargs
    simp [firstError, errorConditions, findError_cons, hop, h0, h1, h2, Opcode.byte, Instr.opcode, instrError,
      regError]

/-- The outcome raises the first error, or is a next state without a fault where there is none. -/
def Reports (s : State) (o : Host.Outcome State Fault Refusal) : Option Error → Prop
  | some e => o = raise e s
  | none => ∃ t, o = .next t ∧ isFaulted t = false

theorem isFaulted_eq_false (h : ∀ e, t.state ≠ .faulted e) : isFaulted t = false := by
  unfold isFaulted
  split
  · rfl
  · rfl
  · next e he => exact absurd he (h e)

/-- A fetched instruction reports the error of its own list, from RUNNING. -/
theorem reports_exec (hrun : s.state = .running) (ins : Instr) : Reports s (exec ins s) (instrError s ins) := by
  have hends := exec_endsAs ins s
  cases herr : instrError s ins with
  | some e => rw [herr] at hends; exact hends
  | none =>
    rw [herr] at hends
    obtain ⟨t, hexec, hdone⟩ := hends
    exact ⟨t, hexec, isFaulted_eq_false (hdone.not_faulted hrun)⟩

theorem reports_step (hrun : s.state = .running) : Reports s (step s) (firstError s) := by
  rcases fetchInstr_cases s with ⟨hpc, hf⟩ | ⟨hpc, hd, hf⟩ | ⟨o, hpc, hd, ⟨hmiss, hf⟩ | ⟨-, hf⟩⟩
  · rw [firstError_of_beyond hpc]
    exact step_of_fetchInstr_error hrun hf
  · rw [firstError_of_illegal hpc hd]
    exact step_of_fetchInstr_error hrun hf
  · rw [firstError_of_missing (byte_of_decodeOpcode hd).symm hpc hmiss]
    exact step_of_fetchInstr_error hrun hf
  · have hfetched := fetchInstr_eq_ok.1 hf
    rw [firstError_of_fetched hfetched, step_of_fetched hrun hfetched]
    exact reports_exec hrun _

/-- Settles O19: the fetch's conditions come first, as the fetch meets them, and then those of the fetched
instruction, as `exec` meets them. -/
theorem firstErrorConditionIsReported : Obligations.FirstErrorConditionIsReported :=
  fun s hrun => match firstError s, reports_step hrun with
    | some _, h => h
    | none, h => h

end Sys2Proof.Machine
end

section
/-! PROOFS. The memory access controller and the stack unit as blocks: O23, O25. -/

namespace Sys2Proof.Machine

/-- Settles O23: the controller answers what its two primitives answer. -/
theorem controllerServesRequests : Obligations.ControllerServesRequests := by
  refine fun kind addr v m => ⟨fun h => ?inRange, fun h => ?beyond⟩
  case inRange =>
    have hlt : addr < 256 := Nat.lt_succ_of_le h
    exact ⟨by rw [macServe, memRead_of_lt kind m hlt], by rw [macServe, memWrite_of_lt kind v m hlt]⟩
  case beyond => exact ⟨by rw [macServe, memRead_of_ge kind m h], by rw [macServe, memWrite_of_ge kind v m h]⟩

/-- Settles O25: the two equations of each primitive of the stack unit. -/
theorem stackUnitPrimitives : Obligations.StackUnitPrimitives := by
  refine ⟨reset_sp, fun s v => ⟨fun h => ?overflow, fun h => ?push, fun h => ?underflow, fun h => ?pop⟩⟩
  case overflow => exact pushByte_of_zero v h
  case push => exact pushByte_of_ne_zero v h
  case underflow => exact popByte_of_top h
  case pop => exact popByte_of_ne_top h

end Sys2Proof.Machine
end

section
/-! PROOFS. The instructions one by one: encoding, result and errors, each a case of the equations of `exec`: O26,
O27, O29 to O34. -/

namespace Sys2Proof.Machine

variable {s : State} {o : Opcode}

/-- Settles O26: HALT has no check, and each value of HALT_PC is one case of its definition. -/
theorem haltStopsTheRun : Obligations.HaltStopsTheRun :=
  ⟨rfl, fun s => ⟨exec_halt s, rfl⟩⟩

/-- An instruction with one operand byte does not fit at 255. -/
theorem step_of_missing_one (hcount : o.operandCount = 1) (hrun : s.state = .running)
    (hop : s.mem.read s.pc = o.byte) (hpc : s.pc = 255) : step s = raise (.outOfBounds .operand 256) s :=
  step_of_missingOperand hrun hop (by omega) (by omega)

/-- An instruction with two operand bytes fits neither at 254 nor at 255. -/
theorem step_of_missing_two (hcount : o.operandCount = 2) (hrun : s.state = .running)
    (hop : s.mem.read s.pc = o.byte) (hpc : s.pc = 254 ∨ s.pc = 255) :
    step s = raise (.outOfBounds .operand 256) s :=
  step_of_missingOperand hrun hop (by omega) (by omega)

/-- Settles O27: the register check decides between the write and the REGISTER error. -/
theorem loadImmediateWritesItsRegister : Obligations.LoadImmediateWritesItsRegister := by
  refine ⟨fun _ _ => rfl, fun s reg imm8 h => ?writes, fun s reg imm8 h => ?badRegister, fun s => ?missing⟩
  case writes => exact exec_loadImmediate imm8 (checkReg_of_lt h)
  case badRegister => exact settle_checkReg_of_gt h _
  case missing => exact step_of_missing_two (o := .loadImmediate) rfl

/-- Settles O29: the two register checks in order, and then the ALU's product into the first register. -/
theorem multiplyWritesProductMod256 : Obligations.MultiplyWritesProductMod256 := by
  refine ⟨fun _ _ => rfl, fun s regA regB hA hB => ?writes, fun s regA regB hA => ?badFirst,
    fun s regA regB hA hB => ?badSecond, fun s => ?missing⟩
  case writes => exact exec_multiply (checkReg_of_lt hA) (checkReg_of_lt hB)
  case badFirst => exact settle_checkReg_of_gt hA _
  case badSecond => exact congrArg (settle s) (aluInstr_of_gt_second _ (checkReg_of_lt hA) hB)
  case missing => exact step_of_missing_two (o := .multiply) rfl

/-- Settles O30: the two register checks in order, and then the ALU's sum into the first register. -/
theorem addWritesSumMod256 : Obligations.AddWritesSumMod256 := by
  refine ⟨fun _ _ => rfl, fun s regA regB hA hB => ?writes, fun s regA regB hA => ?badFirst,
    fun s regA regB hA hB => ?badSecond, fun s => ?missing⟩
  case writes => exact exec_add (checkReg_of_lt hA) (checkReg_of_lt hB)
  case badFirst => exact settle_checkReg_of_gt hA _
  case badSecond => exact congrArg (settle s) (aluInstr_of_gt_second _ (checkReg_of_lt hA) hB)
  case missing => exact step_of_missing_two (o := .add) rfl

/-- Settles O31: past the register check, PUSH overflows at `sp = 0` and stores below `sp` elsewhere. -/
theorem pushStoresItsRegister : Obligations.PushStoresItsRegister := by
  refine ⟨fun _ => rfl, fun s reg h hsp => ?stores, fun s reg h hsp => ?overflow, fun s reg h => ?badRegister,
    fun s => ?missing⟩
  case stores => exact (exec_push (checkReg_of_lt h)).trans (if_neg hsp)
  case overflow => exact (exec_push (checkReg_of_lt h)).trans (if_pos hsp)
  case badRegister => exact settle_checkReg_of_gt h _
  case missing => exact step_of_missing_one (o := .push) rfl

/-- Settles O32: past the register check, POP underflows at `sp = 255` and loads from `sp` elsewhere. -/
theorem popLoadsItsRegister : Obligations.PopLoadsItsRegister := by
  refine ⟨fun _ => rfl, fun s reg h hsp => ?loads, fun s reg h hsp => ?underflow, fun s reg h => ?badRegister,
    fun s => ?missing⟩
  case loads => exact (exec_pop (checkReg_of_lt h)).trans (if_neg hsp)
  case underflow => exact (exec_pop (checkReg_of_lt h)).trans (if_pos hsp)
  case badRegister => exact settle_checkReg_of_gt h _
  case missing => exact step_of_missing_one (o := .pop) rfl

/-- CALL whose return address has a cell: the overflow, or the store and the jump. -/
theorem exec_call_of_le {reg : Byte} {i : Fin 8} (hreg : checkReg reg = .ok i) (hpc : s.pc ≤ 253) :
    exec (.call reg) s =
      if s.sp = 0 then raise (.stackOverflow 0) s
      else .next (((s.setSp (s.sp - 1)).setMem
        (s.mem.write (pushAddr s) (BitVec.ofNat 8 (s.pc + 2)))).setPc (s.reg i).toNat) :=
  (exec_call hreg).trans (if_pos (Nat.lt_succ_of_le hpc))

/-- Settles O33: the register check, the return address and the stack bound in order, and then the jump. -/
theorem callPushesReturnAddressAndJumps : Obligations.CallPushesReturnAddressAndJumps := by
  refine ⟨fun _ => rfl, fun s reg h hpc hsp => ?jumps, fun s reg h hpc hsp => ?overflow,
    fun s reg h hpc => ?badReturn, fun s reg h => ?badRegister, fun s => ?missing⟩
  case jumps => exact (exec_call_of_le (checkReg_of_lt h) hpc).trans (if_neg hsp)
  case overflow => exact (exec_call_of_le (checkReg_of_lt h) hpc).trans (if_pos hsp)
  case badReturn => exact (exec_call (checkReg_of_lt h)).trans (if_neg (Nat.not_lt.2 hpc))
  case badRegister => exact settle_checkReg_of_gt h _
  case missing => exact step_of_missing_one (o := .call) rfl

/-- Settles O34: RETURN underflows at `sp = 255` and jumps elsewhere; without operand bytes it fits at 255. -/
theorem returnPopsProgramCounter : Obligations.ReturnPopsProgramCounter := by
  refine ⟨rfl, fun s hsp => ?jumps, fun s hsp => ?underflow, fun s hrun hop hpc => ?fits⟩
  case jumps => exact (exec_ret s).trans (if_neg hsp)
  case underflow => exact (exec_ret s).trans (if_pos hsp)
  case fits => exact step_of_fetched hrun ⟨hop, rfl, hpc⟩

end Sys2Proof.Machine
end

section
/-! PROOFS. The two values of SP_ALIAS_ORDER (43_stack.md R141, the spec's decision D8): O35. -/

namespace Sys2Proof.Machine

variable {s t : State} {reg : Byte} {i : Fin 8}

/-! ## Each order past the register check -/

theorem execPushWith_of_ne_zero (order : SpAliasOrder) (hreg : checkReg reg = .ok i) (hsp : s.sp ≠ 0) :
    execPushWith order reg s =
      .next (((s.setSp (s.sp - 1)).setMem (s.mem.write (pushAddr s) (pushOperand order i s))).setPc (s.pc + 2)) := by
  refine (settle_checkReg_ok hreg _).trans ?_
  rw [pushByte_of_ne_zero _ hsp]
  rfl

theorem execCallWith_of_ne_zero (order : SpAliasOrder) (hreg : checkReg reg = .ok i) (hpc : s.pc ≤ 253)
    (hsp : s.sp ≠ 0) :
    execCallWith order reg s =
      .next (((s.setSp (s.sp - 1)).setMem
        (s.mem.write (pushAddr s) (BitVec.ofNat 8 (s.pc + 2)))).setPc (pushOperand order i s).toNat) := by
  refine (settle_checkReg_ok hreg _).trans ?_
  rw [returnAddress_eq, if_pos (by omega), except_ok_bind, pushByte_of_ne_zero _ hsp]
  rfl

theorem checkReg_seven : checkReg 7 = .ok 7 := rfl

/-- Under SEQUENTIAL x[7] reads after the decrement. -/
theorem pushOperand_sequential_seven (s : State) : pushOperand .sequential 7 s = s.sp - 1 :=
  s.setSp_sp (s.sp - 1)

theorem setReg_setReg (s : State) (i : Fin 8) (v w : Byte) : (s.setReg i v).setReg i w = s.setReg i w := by
  simp [State.setReg]

theorem setReg_comm (s : State) {i j : Fin 8} (h : i ≠ j) (v w : Byte) :
    (s.setReg i v).setReg j w = (s.setReg j w).setReg i v := by
  simp [State.setReg, Vector.set_comm _ _ (Fin.val_ne_of_ne h)]

/-- The writes of POP step by step: the destination first, and then the check and the increment of `sp` as it then
stands. -/
theorem popSequential_eq (i : Fin 8) (s : State) :
    popSequential i s =
      if (s.setReg i (s.mem.read s.sp.toNat)).sp = 255 then .error (.stackUnderflow 255)
      else .ok ((s.setReg i (s.mem.read s.sp.toNat)).setSp ((s.setReg i (s.mem.read s.sp.toNat)).sp + 1)) := by
  simp only [popSequential, memRead_of_lt .stack s.mem s.sp.isLt, except_ok_bind, except_throw,
    except_error_bind, except_pure]
  split
  · next h => rw [h]
  · rfl

/-- For a destination other than x[7] the order of the two writes does not matter. -/
theorem popSequential_other (s : State) (h : i ≠ 7) : popSequential i s = popOperandsFirst i s := by
  have hsp : (s.setReg i (s.mem.read s.sp.toNat)).sp = s.sp := s.setReg_reg_other i 7 _ h.symm
  rw [popSequential_eq, popOperandsFirst, popByte_eq, hsp]
  split
  · rfl
  · exact congrArg Except.ok (setReg_comm s h _ _)

/-- POP r7 with its writes step by step. -/
theorem execPopWith_sequential_seven (s : State) :
    execPopWith .sequential 7 s =
      if s.mem.read s.sp.toNat = 255 then raise (.stackUnderflow 255) s
      else .next ((s.setSp (s.mem.read s.sp.toNat + 1)).setPc (s.pc + 2)) := by
  have hsp : (s.setReg 7 (s.mem.read s.sp.toNat)).sp = s.mem.read s.sp.toNat := s.setSp_sp _
  refine (settle_checkReg_ok checkReg_seven _).trans ?_
  simp only [popSequential_eq, hsp]
  split
  · rfl
  · simp only [except_ok_bind, except_pure, settle_ok, State.setSp, setReg_setReg]

/-- What the two orders give differs through the operand register alone. -/
theorem execWith_orders_agree (s : State) (h : reg ≠ 7) :
    execPushWith .sequential reg s = execPushWith .operandsFirst reg s ∧
    execPopWith .sequential reg s = execPopWith .operandsFirst reg s ∧
    execCallWith .sequential reg s = execCallWith .operandsFirst reg s := by
  rcases checkReg_ok_or_gt reg with ⟨i, hi⟩ | hgt
  · have hne : i ≠ 7 := by
      rintro rfl
      exact h (BitVec.eq_of_toNat_eq (checkReg_ok.1 hi))
    refine ⟨?_, ?_, ?_⟩
    · simp only [execPushWith, settle_checkReg_ok hi, pushOperand_other _ s hne]
    · simp only [execPopWith, settle_checkReg_ok hi, popSequential_other s hne]
    · simp only [execCallWith, settle_checkReg_ok hi, pushOperand_other _ s hne]
  · simp only [execPushWith, execPopWith, execCallWith, settle_checkReg_of_gt hgt, and_self]

/-- Settles O35: the operand x[7] reads before or after the decrement, and POP's two writes to x[7] leave the last. -/
theorem spAliasOrderResults : Obligations.SpAliasOrderResults := by
  refine ⟨fun s hsp => ⟨?pushFirst, ?pushSequential⟩, fun s t u hsp hpc ht hu => ⟨?callFirst, ?callSequential⟩,
    fun s hsp => ?popFirst, fun s hne => ?popSequential, fun s htop => ?popUnderflow,
    fun s reg h => execWith_orders_agree s h, fun _ _ => ⟨rfl, rfl, rfl⟩⟩
  case pushFirst => exact execPushWith_of_ne_zero .operandsFirst checkReg_seven hsp
  case pushSequential =>
    rw [execPushWith_of_ne_zero .sequential checkReg_seven hsp, pushOperand_sequential_seven]
    rfl
  case callFirst =>
    cases (execCallWith_of_ne_zero .operandsFirst checkReg_seven hpc hsp).symm.trans ht
    rfl
  case callSequential =>
    cases (execCallWith_of_ne_zero .sequential checkReg_seven hpc hsp).symm.trans hu
    rw [State.setPc_pc, pushOperand_sequential_seven, reg_seven]
    have hnz : s.sp ≠ 0 := hsp
    bv_omega
  case popFirst =>
    refine (exec_pop checkReg_seven).trans ((if_neg hsp).trans ?_)
    simp only [State.setSp, setReg_setReg]
    rfl
  case popSequential => exact (execPopWith_sequential_seven s).trans (if_neg hne)
  case popUnderflow => exact (execPopWith_sequential_seven s).trans (if_pos htop)

end Sys2Proof.Machine
end

section
/-! PROOFS. Frames of the instructions: what each leaves unchanged, whether it completes or faults: O36 to O39. -/

namespace Sys2Proof.Machine

variable {s t : State} {ins : Instr}

/-! ## What every instruction leaves unchanged -/

/-- A register the instruction does not write. -/
theorem exec_reg_eq (h : exec ins s = .next t) {r : Fin 8} (hr : ∀ d ∈ writtenRegs ins, r.val ≠ d.toNat) :
    t.reg r = s.reg r := by
  rcases exec_cases h with hfault | hdone
  · exact hfault.reg_eq r
  · exact hdone.reg_eq hr

/-- An address that is not the one a PUSH or CALL stores to. -/
theorem exec_read_eq (h : exec ins s = .next t) {a : Nat}
    (ha : storesToStack ins = true → s.sp ≠ 0 → a ≠ pushAddr s) : t.mem.read a = s.mem.read a := by
  rcases exec_cases h with hfault | hdone
  · rw [hfault.mem_eq]
  · rcases hdone.mem_cases with hm | ⟨hstores, hsp, v, hm⟩
    · rw [hm]
    · rw [hm, Memory.read_write_other _ _ (ha hstores hsp)]

/-- The output, but for PRINT_REG. -/
theorem exec_out_eq (h : exec ins s = .next t) (hprint : ∀ reg, ins ≠ .printReg reg) : t.out = s.out := by
  rcases exec_cases h with hfault | hdone
  · exact hfault.out_eq
  · rcases hdone.out_cases with hout | ⟨reg, i, hins, -, -⟩
    · exact hout
    · exact absurd hins (hprint reg)

/-- The run state, but for HALT and a fault. -/
theorem exec_state_eq (h : exec ins s = .next t) (hhalt : ins ≠ .halt) :
    t.state = s.state ∨ isFaulted t = true := by
  rcases exec_cases h with hfault | hdone
  · exact .inr hfault.isFaulted
  · exact .inl (hdone.state_eq.trans (if_neg hhalt))

/-! ## The frames -/

/-- The frame of an instruction whose one written register is its first operand. -/
theorem registerWriter_frame {d : Byte} (h : exec ins s = .next t) (hwrites : writtenRegs ins = [d])
    (hstores : storesToStack ins = false) (hprint : ∀ reg, ins ≠ .printReg reg) (hhalt : ins ≠ .halt) :
    (∀ r : Fin 8, r.val ≠ d.toNat → t.reg r = s.reg r) ∧
    (∀ a, t.mem.read a = s.mem.read a) ∧ t.out = s.out ∧ (t.state = s.state ∨ isFaulted t = true) := by
  refine ⟨fun r hr => exec_reg_eq h ?_, fun a => exec_read_eq h ?_, exec_out_eq h hprint, exec_state_eq h hhalt⟩
  · simpa [hwrites] using hr
  · simp [hstores]

/-- Settles O36: the three instructions write the register of their first operand alone. -/
theorem registerWritersFrame : Obligations.RegisterWritersFrame := by
  rintro s t ins d (⟨imm8, rfl⟩ | ⟨b, rfl⟩ | ⟨b, rfl⟩) h
  · exact registerWriter_frame h rfl rfl nofun nofun
  · exact registerWriter_frame h rfl rfl nofun nofun
  · exact registerWriter_frame h rfl rfl nofun nofun

/-- PRINT_REG keeps the bytes already in the output. -/
theorem exec_out_extends (h : exec ins s = .next t) : s.out <+: t.out := by
  rcases exec_cases h with hfault | hdone
  · rw [hfault.out_eq]
  · rcases hdone.out_cases with hout | ⟨reg, i, -, -, hout⟩
    · rw [hout]
    · exact ⟨[s.reg i], hout.symm⟩

/-- Settles O37: HALT and PRINT_REG write no register and no memory. -/
theorem haltAndPrintFrame : Obligations.HaltAndPrintFrame := by
  refine ⟨fun s t h => ⟨fun r => ?_, fun a => ?_, ?_⟩, fun s t reg h => ⟨fun r => ?_, fun a => ?_, ?_, ?_⟩⟩
  · exact exec_reg_eq h nofun
  · exact exec_read_eq h nofun
  · exact exec_out_eq h nofun
  · exact exec_reg_eq h nofun
  · exact exec_read_eq h nofun
  · exact exec_out_extends h
  · exact exec_state_eq h nofun

/-- A register other than x[7] is not the one that an instruction writes as its stack pointer. -/
theorem val_ne_seven {r : Fin 8} (h : r ≠ 7) : r.val ≠ (7 : Byte).toNat := Fin.val_ne_of_ne h

/-- Settles O38: POP writes x[7] and its destination, RETURN x[7]. -/
theorem popAndReturnFrame : Obligations.PopAndReturnFrame := by
  refine ⟨fun s t reg h => ⟨fun r h7 hreg => ?_, fun a => ?_, ?_, ?_⟩,
    fun s t h => ⟨fun r h7 => ?_, fun a => ?_, ?_, ?_⟩⟩
  · exact exec_reg_eq h (List.forall_mem_cons.2 ⟨val_ne_seven h7, List.forall_mem_singleton.2 hreg⟩)
  · exact exec_read_eq h nofun
  · exact exec_out_eq h nofun
  · exact exec_state_eq h nofun
  · exact exec_reg_eq h (List.forall_mem_singleton.2 (val_ne_seven h7))
  · exact exec_read_eq h nofun
  · exact exec_out_eq h nofun
  · exact exec_state_eq h nofun

/-- The frame of an instruction that writes x[7] alone and stores below it. -/
theorem stackStore_frame (h : exec ins s = .next t) (hwrites : writtenRegs ins = [7])
    (hprint : ∀ reg, ins ≠ .printReg reg) (hhalt : ins ≠ .halt) :
    (∀ r : Fin 8, r ≠ 7 → t.reg r = s.reg r) ∧
    (∀ a, a = pushAddr s → ∀ b, b ≠ a → t.mem.read b = s.mem.read b) ∧
    (s.reg 7 = 0 → ∀ b, t.mem.read b = s.mem.read b) ∧
    t.out = s.out ∧ (t.state = s.state ∨ isFaulted t = true) := by
  refine ⟨fun r h7 => exec_reg_eq h ?_, fun a ha b hb => exec_read_eq h fun _ _ => ha ▸ hb,
    fun hsp b => exec_read_eq h fun _ hne => absurd hsp hne, exec_out_eq h hprint, exec_state_eq h hhalt⟩
  rw [hwrites]
  exact List.forall_mem_singleton.2 (val_ne_seven h7)

/-- Settles O39: PUSH and CALL write x[7] and the byte below it. -/
theorem stackStoresFrame : Obligations.StackStoresFrame := by
  rintro s t ins reg (rfl | rfl) h
  · exact stackStore_frame h rfl nofun nofun
  · exact stackStore_frame h rfl nofun nofun

end Sys2Proof.Machine
end

section
/-! PROOFS. Rules over all instructions: where `pc` goes, and which opcodes halt, emit and store: O40 to O43. -/

namespace Sys2Proof.Machine

variable {s t : State} {ins : Instr} {reg : Byte}

theorem Completes.pc_eq (h : Completes s ins t) (hcall : ∀ reg, ins ≠ .call reg) (hret : ins ≠ .ret) :
    t.pc = s.pc + (encode ins).length := by
  cases h with
  | call hreg hpc hsp => exact absurd rfl (hcall _)
  | ret hsp => exact absurd rfl hret
  | halt | loadImmediate | printReg | multiply | add | push | pop => rfl

/-- The register an operand byte was checked to, written by its number. -/
theorem reg_of_checkReg {i : Fin 8} (h : checkReg reg = .ok i) (hlt : reg.toNat < 8) : i = ⟨reg.toNat, hlt⟩ :=
  Fin.ext (checkReg_ok.1 h).symm

theorem Completes.call_pc_eq (h : Completes s (.call reg) t) :
    ∃ hlt : reg.toNat < 8, t.pc = (s.reg ⟨reg.toNat, hlt⟩).toNat := by
  cases h with
  | call hreg hpc hsp =>
    have hlt : reg.toNat < 8 := by rw [checkReg_ok.1 hreg]; exact Fin.isLt _
    exact ⟨hlt, by rw [State.setPc_pc, reg_of_checkReg hreg hlt]⟩

theorem Completes.ret_pc_eq (h : Completes s .ret t) : t.pc = (s.mem.read s.sp.toNat).toNat := by
  cases h with
  | ret hsp => rfl

/-- Settles O40: an instruction that answers a state not FAULTED has completed. -/
theorem everyInstructionSetsProgramCounter : Obligations.EveryInstructionSetsProgramCounter := by
  refine ⟨fun ins s t hcall hret h hok => ?sequential, fun reg s t h hok => ?call, fun s t h hok => ?ret⟩
  case sequential => exact (Completes.of_exec h hok).pc_eq hcall hret
  case call => exact (Completes.of_exec h hok).call_pc_eq
  case ret => exact (Completes.of_exec h hok).ret_pc_eq

/-- A step that ends in HALTED completed a HALT. -/
theorem fetched_halt_of_step (h : step s = .next t) (hhalted : t.state = .halted) : Fetched s .halt := by
  obtain ⟨hrun, ⟨e, -, rfl⟩ | ⟨ins, hfetched, hdone⟩⟩ := step_cases h
  · cases hhalted
  · rw [hdone.state_eq] at hhalted
    split at hhalted
    · next hins => exact hins ▸ hfetched
    · cases hrun.symm.trans hhalted

/-- Settles O41: HALT is one byte, so its opcode byte below 256 is all that its fetch needs. -/
theorem onlyHaltEntersHalted : Obligations.OnlyHaltEntersHalted := by
  refine fun s t h => ⟨fun hhalted => ?_, fun ⟨hpc, hop⟩ => ?_⟩
  · have hfetched := fetched_halt_of_step h hhalted
    exact ⟨hfetched.fits, hfetched.opcode⟩
  · have hfetched : Fetched s .halt := ⟨hop, rfl, hpc⟩
    rw [step_of_fetched (running_of_step h) hfetched, exec_halt] at h
    cases h
    rfl

/-- Settles O42: the output changes in a PRINT_REG that completes, whose operand byte is the one after its opcode. -/
theorem onlyPrintRegEmits : Obligations.OnlyPrintRegEmits := by
  intro s t h
  obtain ⟨-, hfault | ⟨ins, hfetched, hdone⟩⟩ := step_cases h
  · exact .inl hfault.out_eq
  · rcases hdone.out_cases with hout | ⟨reg, i, rfl, hreg, hout⟩
    · exact .inl hout
    · have hop : s.mem.read (s.pc + 1) = reg := Instr.printReg.inj hfetched.operands
      exact .inr ⟨hfetched.opcode, i, by rw [hop, checkReg_ok.1 hreg], hout⟩

theorem opcode_of_storesToStack (h : storesToStack ins = true) :
    ins.opcode.byte = 0x45 ∨ ins.opcode.byte = 0x50 := by
  cases ins with
  | push reg => exact .inl rfl
  | call reg => exact .inr rfl
  | halt | loadImmediate | printReg | multiply | add | pop | ret => cases h

/-- Settles O43: memory changes in a PUSH or CALL that completes, at the address it stores to. -/
theorem onlyPushAndCallChangeMemory : Obligations.OnlyPushAndCallChangeMemory := by
  intro s t h a hne
  obtain ⟨-, hfault | ⟨ins, hfetched, hdone⟩⟩ := step_cases h
  · exact absurd (by rw [hfault.mem_eq]) hne
  · rcases hdone.mem_cases with hm | ⟨hstores, hsp, v, hm⟩
    · exact absurd (by rw [hm]) hne
    · have hop := opcode_of_storesToStack hstores
      rw [← hfetched.opcode] at hop
      refine ⟨hop, hsp, by_contra fun ha => hne ?_⟩
      rw [hm, Memory.read_write_other _ _ ha]

end Sys2Proof.Machine
end

section
/-! PROOFS. The stack's round trips, and a stored byte that is fetched next: O44 to O46. -/

namespace Sys2Proof.Machine

variable {s t : State} {v : Byte}

/-! ## A push followed by a pop -/

/-- The byte at the new top after a push is the one pushed. -/
theorem read_top_of_push (h : s.sp ≠ 0) (v : Byte) : (s.mem.write (pushAddr s) v).read (s.sp - 1).toNat = v := by
  have htop : (s.sp - 1).toNat = pushAddr s := by
    unfold pushAddr
    bv_omega
  rw [htop, Memory.read_write_same]

/-- Below a stack pointer other than 0 a pop does not underflow. -/
theorem sub_one_ne_top {b : Byte} (h : b ≠ 0) : b - 1 ≠ 255 := by bv_omega

/-- Settles O44: after PUSH, `sp` names the byte it stored, and POP writes that byte over the increment of `sp`. -/
theorem pushPopRoundTrip : Obligations.PushPopRoundTrip := by
  intro s r r2 h h2 hsp
  have hpush := (exec_push (s := s) (checkReg_of_lt h)).trans (if_neg hsp)
  generalize ht : ((s.setSp (s.sp - 1)).setMem _).setPc (s.pc + 2) = t at hpush
  have htsp : t.sp = s.sp - 1 := by simp [← ht]
  have htop : t.mem.read t.sp.toNat = s.reg ⟨r.toNat, h⟩ := by
    rw [htsp, ← ht]
    exact read_top_of_push hsp _
  have hpop := (exec_pop (s := t) (checkReg_of_lt h2)).trans (if_neg (htsp ▸ sub_one_ne_top hsp))
  rw [htop, htsp, BitVec.sub_add_cancel] at hpop
  refine ⟨t, _, hpush, hpop, ?popped, fun hne => ?sp, ?stays, ?run⟩
  case popped => simp
  case sp =>
    have h7 : (7 : Fin 8) ≠ ⟨r2.toNat, h2⟩ := fun e => hne (BitVec.eq_of_toNat_eq (congrArg Fin.val e).symm)
    rw [State.setPc_reg, State.setReg_reg_other _ _ _ _ h7]
    exact State.setSp_sp t s.sp
  case stays =>
    rw [← ht]
    exact Memory.read_write_same _ _ _
  case run => rw [← ht]; rfl

/-! ## A call followed by a return -/

/-- RETURN where the byte at `sp` is a return address and `sp` is one below a stack pointer other than 0. -/
theorem exec_ret_of_top {b : Byte} (hb : b ≠ 0) (hsp : s.sp = b - 1) (htop : s.mem.read s.sp.toNat = v) :
    exec .ret s = .next ((s.setSp b).setPc v.toNat) := by
  rw [exec_ret, if_neg (hsp ▸ sub_one_ne_top hb), htop, hsp, BitVec.sub_add_cancel]

/-- Settles O45: CALL stores its return address at the new top, where RETURN reads it. -/
theorem callReturnRoundTrip : Obligations.CallReturnRoundTrip := by
  intro s reg h hpc hsp
  refine ⟨_, (exec_call_of_le (checkReg_of_lt h) hpc).trans (if_neg hsp), rfl, rfl, fun u hu htop => ?_⟩
  have husp : u.sp = s.sp - 1 := hu.trans (State.setSp_sp s (s.sp - 1))
  have hread : u.mem.read u.sp.toNat = BitVec.ofNat 8 (s.pc + 2) := by
    have hstored := read_top_of_push hsp (BitVec.ofNat 8 (s.pc + 2))
    rw [← husp] at hstored
    exact (hu ▸ htop).trans hstored
  refine ⟨_, exec_ret_of_top hsp husp hread, ?_, State.setSp_sp u s.sp, rfl⟩
  rw [State.setPc_pc, BitVec.toNat_ofNat]
  omega

/-! ## A stored byte that is fetched next -/

/-- PUSH and CALL that complete have stored their byte at the address below the stack pointer. -/
theorem mem_of_stackStore
    (h : (∃ reg, ∃ h : reg.toNat < 8, exec (.push reg) s = .next t ∧ v = s.reg ⟨reg.toNat, h⟩) ∨
      (∃ reg, exec (.call reg) s = .next t ∧ v = BitVec.ofNat 8 (s.pc + 2)))
    (hok : isFaulted t = false) : t.mem = s.mem.write (pushAddr s) v := by
  obtain ⟨reg, hlt, hexec, rfl⟩ | ⟨reg, hexec, rfl⟩ := h
  · cases Completes.of_exec hexec hok with
    | push hreg hsp => rw [reg_of_checkReg hreg hlt]; rfl
  · cases Completes.of_exec hexec hok with
    | call hreg hpc hsp => rfl

/-- Settles O46: both fetches read memory after the store, at the address stored to. -/
theorem nextFetchSeesStackStore : Obligations.NextFetchSeesStackStore := by
  intro s t v h hok
  have hmem := mem_of_stackStore h hok
  have hread (kind : BoundsKind) : memRead kind (pushAddr s) t.mem = .ok v := by
    rw [memRead_of_lt kind t.mem (pushAddr_lt s), hmem, Memory.read_write_same]
  refine ⟨fun hpc => ?_, fun n k hk hpc => ?_⟩
  · rw [fetchOpcode, hpc]
    exact hread .fetch
  · rw [fetchOperand, if_pos hk, hpc]
    exact hread .operand

end Sys2Proof.Machine
end

section
/-! PROOFS. What the host sees: output lines in decimal (41_data_movement.md R102) and the trace
(40_execution_cycle.md R90): O47, O48. -/

namespace Sys2Proof.Machine

/-! ## Decimal digits -/

theorem digitChar_toNat (n : Nat) : (digitChar n).toNat = 48 + n % 10 := by
  have hdigit : ∀ d < 10, (Char.ofNat (48 + d)).toNat = 48 + d := by decide
  exact hdigit _ (Nat.mod_lt n (by decide))

/-- The number that decimal digits spell. -/
def spelled (digits : List Char) : Nat := digits.foldl (fun n c => 10 * n + (c.toNat - 48)) 0

/-- The digits are those of the hundreds, tens and units from the first that is not 0. -/
theorem decimalDigits_cases (v : Byte) :
    v.toNat < 10 ∧ decimalDigits v = [digitChar v.toNat] ∨
    10 ≤ v.toNat ∧ v.toNat < 100 ∧ decimalDigits v = [digitChar (v.toNat / 10), digitChar v.toNat] ∨
    100 ≤ v.toNat ∧
      decimalDigits v = [digitChar (v.toNat / 100), digitChar (v.toNat / 10), digitChar v.toNat] := by
  unfold decimalDigits
  by_cases h10 : v.toNat < 10
  · exact .inl ⟨h10, if_pos h10⟩
  · by_cases h100 : v.toNat < 100
    · exact .inr (.inl ⟨by omega, h100, (if_neg h10).trans (if_pos h100)⟩)
    · exact .inr (.inr ⟨by omega, (if_neg h10).trans (if_neg h100)⟩)

theorem decimalDigits_eq_digitChar (v : Byte) : ∀ c ∈ decimalDigits v, ∃ n, c = digitChar n := by
  rcases decimalDigits_cases v with ⟨-, h⟩ | ⟨-, -, h⟩ | ⟨-, h⟩ <;> rw [h] <;> simp

theorem spelled_decimalDigits (v : Byte) : spelled (decimalDigits v) = v.toNat := by
  have hlt := v.isLt
  rcases decimalDigits_cases v with ⟨h1, h⟩ | ⟨h1, h2, h⟩ | ⟨h1, h⟩ <;>
    simp only [h, spelled, List.foldl_cons, List.foldl_nil, digitChar_toNat] <;> omega

/-- A first digit 0 is the only digit. -/
theorem decimalDigits_no_leading_zero {v : Byte} (h : (decimalDigits v).head? = some '0') :
    decimalDigits v = ['0'] := by
  have hlt := v.isLt
  have hzero {n : Nat} (hn : digitChar n = '0') : n % 10 = 0 := by
    have := digitChar_toNat n
    rw [hn] at this
    exact (Nat.add_left_cancel this).symm
  rcases decimalDigits_cases v with ⟨h1, hd⟩ | ⟨h1, h2, hd⟩ | ⟨h1, hd⟩ <;> rw [hd] at h ⊢
  · rw [Option.some.inj h]
  · have := hzero (Option.some.inj h)
    omega
  · have := hzero (Option.some.inj h)
    omega

/-- Settles O47: a byte has one, two or three digits, each a digit character, and they spell its value. -/
theorem outputLineIsDecimal : Obligations.OutputLineIsDecimal := by
  refine fun v => ⟨decimalDigits v, rfl, ?nonempty, fun c hc => ?digit, spelled_decimalDigits v,
    decimalDigits_no_leading_zero⟩
  case nonempty => rcases decimalDigits_cases v with ⟨-, h⟩ | ⟨-, -, h⟩ | ⟨-, h⟩ <;> rw [h] <;> nofun
  case digit =>
    obtain ⟨n, rfl⟩ := decimalDigits_eq_digitChar v c hc
    rw [digitChar_toNat]
    omega

/-! ## The trace -/

/-- A trace entry: the byte at an address below 256, and none beyond. -/
theorem memRead_toOption (kind : BoundsKind) (a : Nat) (m : Memory) :
    (memRead kind a m).toOption = if a ≤ 255 then some (m.read a) else none := by
  split
  · next h => rw [memRead_of_lt kind m (Nat.lt_succ_of_le h)]; rfl
  · next h => rw [memRead_of_ge kind m (Nat.lt_of_not_le h)]; rfl

/-- Settles O48: the three entries are reads of the three addresses. -/
theorem traceShowsAbsentBytesBeyond255 : Obligations.TraceShowsAbsentBytesBeyond255 := by
  refine fun s => ⟨rfl, rfl, rfl, fun k hk => ?_⟩
  rw [← memRead_toOption .operand]
  match k, hk with
  | 0, _ | 1, _ | 2, _ => rfl

end Sys2Proof.Machine
end
